-- ==== Sys2Proof/Word.lean ====
section
/-! DEFINITION. The widths of the machine's values (00_scope.md R5, R6): every value is an unsigned bit vector, bit 0 the
least significant. -/

namespace Sys2Proof

/-- A byte of memory or a general register (`XLEN`, 8 bits; R5, R20, R50). -/
abbrev Byte := BitVec 8

/-- An instruction word, the program counter or a call-stack slot (`ILEN`, `PC_WIDTH`, `STACK_WIDTH`, 16 bits; R5). -/
abbrev Word := BitVec 16

/-- A memory address operand (`ADDR_BITS`, 12 bits; R5, R50). -/
abbrev Addr := BitVec 12

/-- A 4-bit field of the instruction word (R72). -/
abbrev Nibble := BitVec 4

/-- The number of a general register, 0 to 15; every value names a register (R73). -/
abbrev RegIdx := BitVec 4

/-- The stack pointer (`SP_WIDTH`, 5 bits; legal values 0 to 16; R5, R30). -/
abbrev StackPtr := BitVec 5

end Sys2Proof
end

