-- ==== Sys2Proof/Config.lean ====
section
/-! DEFINITION. The implementation parameters of 00_scope.md R5 that are numbers of the machine; the widths of R5 are the
types of Word.lean. The spec leaves no parameter open and no value free ("No parameter is left open as an argument of
the model: every one has a value"), so nothing here is opaque. -/

namespace Sys2Proof.Config

/-- `MEM_SIZE`: bytes of memory, addresses 0x000 to 0xFFF (R5, R50). -/
abbrev memSize : Nat := 4096

/-- `STACK_DEPTH`: slots of the call stack (R5, R28). -/
abbrev stackDepth : Nat := 16

/-- `FLAG_REG`: the register that is also the carry flag (R5, R22). -/
abbrev flagReg : RegIdx := 15

/-- `PC_STEP`: what the program counter advances by after each fetch (R5, R93). -/
abbrev pcStep : Word := 2

/-- `PC_RESET`: the program counter after reset (R5, R39). -/
abbrev pcReset : Word := 0

end Sys2Proof.Config
end

