-- ==== Sys2Proof/Syntax.lean ====
section
/-! DEFINITION. The instruction set (00_scope.md R2; 30_encoding.md R75): four instructions, one constructor for each row
of opcode_table.json. A word outside the four patterns is no instruction; it faults in the step (R79). -/

namespace Sys2Proof

/-- The instructions, with the operands of 30_encoding.md R73. -/
inductive Instr where
  /-- HALT, word 0x0000 (41_system_halt.md R110). -/
  | halt
  /-- RETURN, word 0x00EE (43_control_transfer.md R133). -/
  | ret
  /-- CALL nnn, word 0x2nnn: `nnn` an absolute byte address (43_control_transfer.md R132). -/
  | call (nnn : Addr)
  /-- ADD Rx, Ry, word 0x8xy4: `x` the destination and first source, `y` the second source (42_arithmetic_add.md R120). -/
  | add (x y : RegIdx)
  deriving DecidableEq, Repr

/-- An instruction as it is written down, its operands plain numbers: the canonical text form of 30_encoding.md R82
(`HALT`, `RETURN`, `CALL 0xNNN`, `ADD Ra, Rb`), the destination of ADD first. -/
inductive Asm where
  | halt
  | ret
  | call (nnn : Nat)
  | add (a b : Nat)
  deriving DecidableEq, Repr

end Sys2Proof
end

