-- ==== Sys2Proof/WellFormed.lean ====
section
/-! DEFINITION. Well-formedness: the operand ranges of 30_encoding.md R82 and R84. `Instr` carries them in its types
(every value of the fields `x`, `y`, `nnn` is valid, R73), so the check bites on instructions written with plain
numbers (`Asm`), and an instruction is well-formed as its written form is. -/

namespace Sys2Proof

/-- The operand ranges of R82 and R84: `0 <= nnn <= 0xFFF`, `0 <= x, y <= 15`. -/
def Asm.wf : Asm → Bool
  | .halt => true
  | .ret => true
  | .call nnn => decide (nnn ≤ 0xFFF)
  | .add a b => decide (a ≤ 15) && decide (b ≤ 15)

/-- The instruction a written form stands for; `none` when an operand is out of range. -/
def Asm.toInstr (a : Asm) : Option Instr :=
  if a.wf then
    match a with
    | .halt => some .halt
    | .ret => some .ret
    | .call nnn => some (.call (BitVec.ofNat 12 nnn))
    | .add x y => some (.add (BitVec.ofNat 4 x) (BitVec.ofNat 4 y))
  else none

/-- The written form of an instruction. -/
def Instr.toAsm : Instr → Asm
  | .halt => .halt
  | .ret => .ret
  | .call nnn => .call nnn.toNat
  | .add x y => .add x.toNat y.toNat

/-- An instruction is well-formed when its operands lie in the ranges of R84. -/
def Instr.wf (i : Instr) : Bool := i.toAsm.wf

/-- A hexadecimal digit, capitals for A to F, as R82 writes them. -/
def hexDigit (n : Nibble) : String := String.singleton (Nat.digitChar n.toNat).toUpper

/-- The canonical text of an instruction (R82). -/
def Instr.text : Instr → String
  | .halt => "HALT"
  | .ret => "RETURN"
  | .call nnn =>
    "CALL 0x" ++ hexDigit (nnn.extractLsb' 8 4) ++ hexDigit (nnn.extractLsb' 4 4) ++ hexDigit (nnn.extractLsb' 0 4)
  | .add x y => "ADD R" ++ hexDigit x ++ ", R" ++ hexDigit y

end Sys2Proof
end

