-- ==== Sys2Proof/Decode.lean ====
section
/-! DEFINITION. Decoding (40_fetch_decode_step.md R94 to R96; 30_encoding.md R70 to R81), total on any word and on any
bytes and rejecting by name, and after it the encoder (30_encoding.md R84). -/

namespace Sys2Proof

/-- The fields of an instruction word (R72, R94). -/
structure Fields where
  c : Nibble
  x : Nibble
  y : Nibble
  d : Nibble
  nnn : Addr
  deriving DecidableEq, Repr

/-- `Decode(w) = (c, x, y, d, nnn)` (R94). -/
def fieldsOf (w : Word) : Fields where
  c := w.extractLsb' 12 4
  x := w.extractLsb' 8 4
  y := w.extractLsb' 4 4
  d := w.extractLsb' 0 4
  nnn := w.extractLsb' 0 12

/-- `Op(w)` of R96: one of the four instructions, or a word with no defined semantics. -/
inductive Decoded where
  | instr (i : Instr)
  /-- UNIMPL(w): rejected by name, and faulted by execute, not by decode (R79, R95). -/
  | unimplemented (w : Word)
  deriving DecidableEq, Repr

/-- Classification of a word by its fields (R96). -/
def decodeWord (w : Word) : Decoded :=
  let f := fieldsOf w
  if f.c = 0x0 ∧ f.x = 0x0 ∧ f.y = 0x0 ∧ f.d = 0x0 then .instr .halt
  else if f.c = 0x0 ∧ f.x = 0x0 ∧ f.y = 0xE ∧ f.d = 0xE then .instr .ret
  else if f.c = 0x2 then .instr (.call f.nnn)
  else if f.c = 0x8 ∧ f.d = 0x4 then .instr (.add f.x f.y)
  else .unimplemented w

/-- The word formed from two consecutive bytes, the one at the lower address the more significant (R52, R71). -/
def wordOfBytes (byte0 byte1 : Byte) : Word := byte0 ++ byte1

/-- `w[15:8]`, the byte of a word that lies at the lower address (R71). -/
def highByte (w : Word) : Byte := w.extractLsb' 8 8

/-- `w[7:0]`, the byte of a word that lies at the higher address (R71). -/
def lowByte (w : Word) : Byte := w.extractLsb' 0 8

/-- What a list of bytes decodes to, with the bytes that follow the instruction. -/
inductive DecodedBytes where
  | instr (i : Instr) (rest : List Byte)
  /-- The first two bytes are a word of none of the four patterns (R79). -/
  | unimplemented (w : Word) (rest : List Byte)
  /-- Fewer than two bytes: no word (R70). -/
  | truncated
  deriving DecidableEq, Repr

/-- Decoding of the bytes at an address, in address order (R70, R71). -/
def decodeBytes : List Byte → DecodedBytes
  | b0 :: b1 :: rest =>
    match decodeWord (wordOfBytes b0 b1) with
    | .instr i => .instr i rest
    | .unimplemented w => .unimplemented w rest
  | _ => .truncated

/-- The decoder's answer for a row of opcode_table.json whose bits are `w`, bit 0 the least significant: the word laid
out in memory order (R71) and given to the decoder. Bits at or above `nbits` are 0; a number that does not fit the
one instruction length of R70 is refused (log 8). -/
def decodeTableWord (nbits w : Nat) : Option Instr :=
  let v := w % 2 ^ nbits
  if v < 2 ^ 16 then
    match decodeBytes [highByte (BitVec.ofNat 16 v), lowByte (BitVec.ofNat 16 v)] with
    | .instr i _ => some i
    | .unimplemented _ _ => none
    | .truncated => none
  else none

/-- A row of the opcode map (R75): a word is the row's instruction when `(w & mask) = match`. -/
structure OpcodeRow where
  mnemonic : String
  mask : Word
  pattern : Word
  deriving DecidableEq, Repr

/-- The opcode map of R75 and opcode_table.json. -/
def opcodeTable : List OpcodeRow :=
  [ { mnemonic := "HALT", mask := 0xFFFF, pattern := 0x0000 },
    { mnemonic := "RETURN", mask := 0xFFFF, pattern := 0x00EE },
    { mnemonic := "CALL", mask := 0xF000, pattern := 0x2000 },
    { mnemonic := "ADD", mask := 0xF00F, pattern := 0x8004 } ]

/-- `(w & mask) = match` (R75). -/
def OpcodeRow.matchesWord (r : OpcodeRow) (w : Word) : Bool := (w &&& r.mask) == r.pattern

/-- The mnemonic of an instruction's row (R75). -/
def Instr.mnemonic : Instr → String
  | .halt => "HALT"
  | .ret => "RETURN"
  | .call _ => "CALL"
  | .add _ _ => "ADD"

/-- The word of an instruction (R75, R84). -/
def encode : Instr → Word
  | .halt => 0x0000#16
  | .ret => 0x00EE#16
  | .call nnn => 0x2#4 ++ nnn
  | .add x y => 0x8#4 ++ x ++ y ++ 0x4#4

/-- The two bytes of an instruction in address order, `[w[15:8], w[7:0]]` (R71). -/
def encodeBytes (i : Instr) : List Byte := [highByte (encode i), lowByte (encode i)]

end Sys2Proof
end

