-- ==== Sys2Proof/Machine/State.lean ====
section
/-! DEFINITION. The state of the machine, all of it (10_state.md R20 to R39: "the state listed in rules R20 to R36 is all
the state there is"), as plain data, and its value after reset. -/

namespace Sys2Proof.Machine

/-- `run_state` (10_state.md R33): three values, a closed enumeration (93_implementation_defined.md U10). -/
inductive RunState where
  | running
  /-- Terminal, normal exit. -/
  | halted
  /-- Terminal, abnormal exit. -/
  | faulted
  deriving DecidableEq, Repr

/-- `fault_cause` (10_state.md R35, 60_exceptions.md R175): the hardware's own record of its four fatal conditions. Taking
one is a NEXT state (R178); do not confuse it with `Fault`, the model's reasons for having no next state. -/
inductive FaultCause where
  /-- No fault has occurred. -/
  | noFault
  /-- A fetch with `pc >= 0xFFF` (R171). -/
  | outOfBoundsFetch
  /-- A word outside the four patterns (R172). -/
  | unimplementedOpcode
  /-- CALL with `sp >= 16` (R173). -/
  | stackOverflow
  /-- RETURN with `sp = 0` (R174). -/
  | stackUnderflow
  deriving DecidableEq, Repr

/-- Memory: the bytes that differ from what an unlisted address reads as (0, 20_memory.md R59), by strictly rising
address. The form is checked by `Memory.wf`. -/
abbrev Memory := List Host.Cell

/-- The state of the machine (10_state.md R37, R39). -/
structure State where
  /-- `x[0]` to `x[15]`; `x[15]` is also the carry flag (R20, R22). -/
  regs : Vector Byte 16
  /-- The program counter (R24). -/
  pc : Word
  /-- `mem[0]` to `mem[4095]` (R36, 20_memory.md R50). -/
  mem : Memory
  /-- The call stack, storage of its own (R28, 20_memory.md R65). -/
  stack : Vector Word 16
  /-- The stack pointer, the next free slot; legal values 0 to 16 (R30, R31). -/
  sp : StackPtr
  /-- The state of the run loop (R33). -/
  runState : RunState
  /-- The fault record's cause (R35). -/
  faultCause : FaultCause
  /-- The fault record's information: the word, or the fetch address (R35, R175). -/
  faultInfo : Word
  deriving DecidableEq, Repr

/-- Why the model has no next state: the run has ended. None is a fatal condition of the hardware (those are next states,
see `FaultCause`), and a Running machine always has a next state (40_fetch_decode_step.md R99). -/
inductive Fault where
  /-- A step asked of a machine that has Halted; raised by `step`. Safe: the hardware takes no step there either ("no step
  applies in them", 10_state.md R34; 93_implementation_defined.md U12; log 2). -/
  | runHalted
  /-- A step asked of a machine that has Faulted; raised by `step`. Safe, as `runHalted` (10_state.md R34, 60_exceptions.md
  R180, U12; log 2). -/
  | runFaulted
  deriving DecidableEq, Repr

/-- Why the model declines an instruction. -/
inductive Refusal where
  /-- An instruction of the opcode table that has no meaning yet; raised by an arm of `exec` only. Safe. No arm raises it:
  all four instructions have their meaning. -/
  | notModelled (mnemonic : String)
  deriving DecidableEq, Repr

/-- The machine right after reset (10_state.md R39, 70_reset_and_hazards.md R200): every value zero, no fault recorded,
Running with no step taken. -/
def State.reset : State where
  regs := Vector.replicate 16 0
  pc := Config.pcReset
  mem := []
  stack := Vector.replicate 16 0
  sp := 0
  runState := .running
  faultCause := .noFault
  faultInfo := 0

end Sys2Proof.Machine
end

