-- ==== Sys2Proof/Machine/Ops.lean ====
section
/-! DEFINITION. The named operations over the state: registers, memory (20_memory.md), the call stack
(43_control_transfer.md R130, R131), the program counter (40_fetch_decode_step.md R90 to R93), and taking a fatal
condition, one shared operation (60_exceptions.md R178). There is no return from a fatal condition (R180), so none
stands beside it. -/

namespace Sys2Proof.Machine

/-! ### Reading and updating one field -/

/-- `x[i]` (00_scope.md R7): an ordinary 8-bit read, register 15 included (10_state.md R20, R22). -/
def State.reg (s : State) (i : RegIdx) : Byte := s.regs[i.toNat]'i.isLt

/-- `x[i] <- v` (00_scope.md R7). -/
def State.setReg (s : State) (i : RegIdx) (v : Byte) : State := { s with regs := s.regs.set i.toNat v i.isLt }

/-- `stack[k]` (00_scope.md R7). -/
def State.slot (s : State) (k : BitVec 4) : Word := s.stack[k.toNat]'k.isLt

/-- `stack[k] <- v`. -/
def State.setSlot (s : State) (k : BitVec 4) (v : Word) : State := { s with stack := s.stack.set k.toNat v k.isLt }

/-- `pc <- target` (00_scope.md R7). -/
def State.setPc (s : State) (target : Word) : State := { s with pc := target }

/-- `sp <- v`. -/
def State.setSp (s : State) (v : StackPtr) : State := { s with sp := v }

/-- `mem` replaced; only the host's seeding does this (20_memory.md R58). -/
def State.setMem (s : State) (m : Memory) : State := { s with mem := m }

/-- `run_state <- r` (10_state.md R34). -/
def State.setRunState (s : State) (r : RunState) : State := { s with runState := r }

/-! ### The numbers behind the two enumerations -/

/-- The 2-bit code of `run_state` (10_state.md R33). -/
def RunState.code : RunState → BitVec 2
  | .running => 0
  | .halted => 1
  | .faulted => 2

/-- The 3-bit code of `fault_cause` (10_state.md R35, 60_exceptions.md R175). -/
def FaultCause.code : FaultCause → BitVec 3
  | .noFault => 0
  | .outOfBoundsFetch => 1
  | .unimplementedOpcode => 2
  | .stackOverflow => 3
  | .stackUnderflow => 4

/-! ### Memory -/

/-- What a byte that nobody has written reads as: 0 (20_memory.md R59). -/
def Memory.unlisted : Byte := 0

/-- `mem[a]` (20_memory.md R50). -/
def Memory.read : Memory → Nat → Byte
  | [], _ => Memory.unlisted
  | (k, v) :: m, a => if k = a then v else Memory.read m a

/-- A new first cell, unless its byte is what an unlisted address reads as. -/
def Memory.cons (a : Nat) (v : Byte) (m : Memory) : Memory := if v = Memory.unlisted then m else (a, v) :: m

/-- One byte written, keeping the canonical form. No unit of the core writes memory (20_memory.md R58); this is the byte
form of `MemWrite`, the host's seeding (00_scope.md R7). -/
def Memory.write : Memory → Nat → Byte → Memory
  | [], a, v => Memory.cons a v []
  | (k, u) :: m, a, v =>
    if a < k then Memory.cons a v ((k, u) :: m)
    else if a = k then Memory.cons a v m
    else (k, u) :: Memory.write m a v

/-- The canonical form from address `lo` on: addresses strictly rising and inside memory, no listed byte 0. -/
def Memory.wfFrom : Nat → Memory → Bool
  | _, [] => true
  | lo, (k, v) :: m =>
    decide (lo ≤ k) && decide (k < Config.memSize) && decide (v ≠ Memory.unlisted) && Memory.wfFrom (k + 1) m

/-- The canonical form of memory. -/
def Memory.wf (m : Memory) : Bool := Memory.wfFrom 0 m

/-- `MemRead(addr, 1)`; `none` is `OutOfBoundsFetch(addr)` (00_scope.md R7). No unit of the core reads a single byte on its
own (20_memory.md R55); the host's read-out does. -/
def memReadByte (m : Memory) (addr : Nat) : Option Byte :=
  if addr < Config.memSize then some (Memory.read m addr) else none

/-- `MemRead(addr, 2)`, the more significant byte at the lower address; `none` is `OutOfBoundsFetch(addr)`, and then nothing
is read (00_scope.md R7, 20_memory.md R52, R53). -/
def memReadWord (m : Memory) (addr : Nat) : Option Word :=
  if addr + 1 < Config.memSize then some (wordOfBytes (Memory.read m addr) (Memory.read m (addr + 1))) else none

/-! ### Fetch and advance -/

/-- `Fetch(pc)` (40_fetch_decode_step.md R90, R91); `none` is `OutOfBoundsFetch(pc)`. It writes no state (R92). -/
def fetch (s : State) : Option Word := memReadWord s.mem s.pc.toNat

/-- The advance after a successful fetch (40_fetch_decode_step.md R93). -/
def advance (s : State) : State := s.setPc (s.pc + Config.pcStep)

/-! ### The call stack -/

/-- `full`: no slot is free, `sp >= 16` (43_control_transfer.md R132, 45_unit_interfaces.md R155). -/
def stackFull (s : State) : Bool := decide (Config.stackDepth ≤ s.sp.toNat)

/-- `empty`: `sp = 0` (43_control_transfer.md R133, 45_unit_interfaces.md R155). -/
def stackEmpty (s : State) : Bool := s.sp == 0

/-- A pop reads a slot of the stack: it is not empty, and `sp` is not one of the unreachable values 17 to 31, for which the
pop would index outside it (10_state.md R31, 93_implementation_defined.md U4; log 3). -/
def popDefined (s : State) : Bool := !stackEmpty s && decide (s.sp.toNat ≤ Config.stackDepth)

/-- `StackPush(v)`; precondition `sp <= 15`, where the slot index is `sp` itself (43_control_transfer.md R130). -/
def stackPush (v : Word) (s : State) : State := (s.setSlot (s.sp.setWidth 4) v).setSp (s.sp + 1)

/-- The value `StackPop()` returns: `stack[sp - 1]`, the newest live entry (43_control_transfer.md R131); precondition
`1 <= sp <= 16`. -/
def stackTop (s : State) : Word := s.slot ((s.sp - 1).setWidth 4)

/-- The state `StackPop()` leaves: `sp` one less, the slot kept (43_control_transfer.md R131). -/
def stackDrop (s : State) : State := s.setSp (s.sp - 1)

/-! ### Fatal conditions -/

/-- `raise F(info)` (00_scope.md R7, 60_exceptions.md R178): `run_state <- Faulted` and the fault record written; nothing
else is written, nothing saved, and control goes nowhere. -/
def raise (cause : FaultCause) (info : Word) (s : State) : State :=
  { s with runState := .faulted, faultCause := cause, faultInfo := info }

/-- Execute of UNIMPL(w) (40_fetch_decode_step.md R97, 60_exceptions.md R172). -/
def execUnimplemented (w : Word) (s : State) : State := raise .unimplementedOpcode w s

/-- The fetch part of a step whose fetch is out of bounds (40_fetch_decode_step.md R91, 60_exceptions.md R171). -/
def fetchFault (s : State) : State := raise .outOfBoundsFetch s.pc s

end Sys2Proof.Machine
end

