-- ==== Sys2Proof/Machine/Flags.lean ====
section
/-! DEFINITION. The alu and the one flag of the machine, the carry in register 15 (42_arithmetic_add.md R120 to R122;
10_state.md R22). -/

namespace Sys2Proof.Machine

/-- The exact 9-bit sum of two bytes; no carry-in (42_arithmetic_add.md R120, R121). -/
def exactSum (a b : Byte) : BitVec 9 := a.setWidth 9 + b.setWidth 9

/-- `s[7:0]`, the sum modulo 256 (R120, R121). -/
def addSum (a b : Byte) : Byte := (exactSum a b).extractLsb' 0 8

/-- `s[8]`, the carry out of bit 7 (R120, R121). -/
def addCarry (a b : Byte) : Bool := (exactSum a b).getLsbD 8

/-- The byte the flag register takes: 1 or 0 (R120). -/
def carryByte (carry : Bool) : Byte := if carry then 1 else 0

/-- `x[15] <- carry`, whatever it held before (R122). -/
def writeCarry (carry : Bool) (s : State) : State := s.setReg Config.flagReg (carryByte carry)

end Sys2Proof.Machine
end

