-- ==== Sys2Proof/Machine/Operands.lean ====
section
/-! DEFINITION. The operand forms (30_encoding.md R73: "There are no addressing modes"): a register named by a 4-bit field,
and the 12-bit address `nnn`, zero-extended. -/

namespace Sys2Proof.Machine

/-- The two register operands of ADD, both read before any write (42_arithmetic_add.md R120). -/
def regOperands (x y : RegIdx) (s : State) : Byte × Byte := (s.reg x, s.reg y)

/-- `zext_16(nnn)`: the target of CALL, absolute, unscaled, unchecked (30_encoding.md R73, 43_control_transfer.md R136). -/
def callTarget (nnn : Addr) : Word := nnn.setWidth 16

end Sys2Proof.Machine
end

