-- ==== Sys2Proof/Machine/Arithmetic.lean ====
section
/-! DEFINITION. The arithmetic instruction ADD (42_arithmetic_add.md). -/

namespace Sys2Proof.Machine

/-- ADD Rx, Ry (42_arithmetic_add.md R120): both operands read first, the sum written to `x[x]`, the carry to `x[15]` last,
so the carry wins when `x = 15` (R123). It cannot fault. -/
def execAdd (x y : RegIdx) (s : State) : Host.Outcome State Fault Refusal :=
  let ab := regOperands x y s
  .next (writeCarry (addCarry ab.1 ab.2) (s.setReg x (addSum ab.1 ab.2)))

end Sys2Proof.Machine
end

