-- ==== Sys2Proof/Machine/ControlTransfer.lean ====
section
/-! DEFINITION. The control transfers CALL and RETURN (43_control_transfer.md). On entry `pc` has been advanced
(40_fetch_decode_step.md R93). The word recorded by a fault is the instruction's own, which its encoding gives back
(30_encoding.md R81; log 4). -/

namespace Sys2Proof.Machine

/-- CALL nnn (43_control_transfer.md R132): `StackOverflow(w)` when `sp >= 16`, nothing else written; otherwise the return
address is pushed and `pc` takes the target. -/
def execCall (nnn : Addr) (s : State) : Host.Outcome State Fault Refusal :=
  if stackFull s then .next (raise .stackOverflow (encode (.call nnn)) s)
  else .next ((stackPush s.pc s).setPc (callTarget nnn))

/-- RETURN (43_control_transfer.md R133): `StackUnderflow(w)` when `sp = 0`, nothing else written; otherwise the newest
return address goes to `pc`, all 16 bits. For an `sp` of 17 to 31, unreachable, the pop would index outside the stack, so
RETURN faults instead (10_state.md R31, 93_implementation_defined.md U4), with the one cause RETURN can raise (log 3). -/
def execReturn (s : State) : Host.Outcome State Fault Refusal :=
  if popDefined s then .next ((stackDrop s).setPc (stackTop s))
  else .next (raise .stackUnderflow (encode .ret) s)

end Sys2Proof.Machine
end

