-- ==== Sys2Proof/Machine/System.lean ====
section
/-! DEFINITION. The system instruction HALT (41_system_halt.md). -/

namespace Sys2Proof.Machine

/-- HALT (41_system_halt.md R110): the run loop stops; nothing else changes in execute, and `pc` keeps the advanced value.
It does not look at the call stack (R112). -/
def execHalt (s : State) : Host.Outcome State Fault Refusal := .next (s.setRunState .halted)

end Sys2Proof.Machine
end

