-- ==== Sys2Proof/Machine/Dispatch.lean ====
section
/-! DEFINITION. Execute (40_fetch_decode_step.md R97): one arm per instruction, on the state as it is after the advance. -/

namespace Sys2Proof.Machine

def exec (i : Instr) (s : State) : Host.Outcome State Fault Refusal :=
  match i with
  | .halt => Sys2Proof.Machine.execHalt s
  | .ret => Sys2Proof.Machine.execReturn s
  | .call nnn => Sys2Proof.Machine.execCall nnn s
  | .add x y => Sys2Proof.Machine.execAdd x y s

end Sys2Proof.Machine
end

