-- ==== Sys2Proof/Machine/Step.lean ====
section
/-! DEFINITION. The step (40_fetch_decode_step.md R98): fetch, advance, decode, execute, one indivisible transition, defined
only while Running (R99). -/

namespace Sys2Proof.Machine

/-- One step (R98). A Halted or Faulted machine has no successor (10_state.md R34; log 2). -/
def step (s : State) : Host.Outcome State Fault Refusal :=
  match s.runState with
  | .halted => .fault .runHalted
  | .faulted => .fault .runFaulted
  | .running =>
    match fetch s with
    | none => .next (fetchFault s)
    | some w =>
      match decodeWord w with
      | .instr i => exec i (advance s)
      | .unimplemented w => .next (execUnimplemented w (advance s))

/-- Where a state that is to run a word fetches it: `pc`, or address 0 when `pc` is beyond the last address a fetch can
start at (log 7). -/
def fetchAddress (s : State) : Word := if s.pc.toNat ≤ 0xFFE then s.pc else 0

/-- The instruction whose bits are `w` stored where the next step fetches, as the host's seeding stores a program
(70_reset_and_hazards.md R204, R208; log 1 and 7). Running, and a `pc` a fetch can start at, are what the fetch needs;
from a Running state with `pc <= 0xFFE` only the two bytes of memory change. -/
def State.withFetchWord (s : State) (nbits w : Nat) : State :=
  let v := BitVec.ofNat 16 (w % 2 ^ nbits)
  let p := fetchAddress s
  { s with
    mem := Memory.write (Memory.write s.mem p.toNat (highByte v)) (p.toNat + 1) (lowByte v)
    pc := p
    runState := .running }

end Sys2Proof.Machine
end

