-- ==== Sys2Proof/Machine/Units.lean ====
section
/-! DEFINITION. The seven units of the block and their ports (45_unit_interfaces.md R150 to R158), wired into one step,
`unitStep`. The file adds no behaviour to `step`: it is the same transition rewritten per unit (R157). A port value the
spec says has no meaning, or that is not driven, is `none` (log 6). -/

namespace Sys2Proof.Machine.Units

/-! ### fetch_unit (R151) -/

/-- The outputs of the fetch_unit. -/
structure FetchPorts where
  /-- Driven only when `p <= 0xFFE`. -/
  memAddr0 : Option Addr
  memAddr1 : Option Addr
  /-- No meaning when `fetchFault` is 1. -/
  instrWord : Option Word
  fetchFault : Bool
  deriving DecidableEq, Repr

/-- The fetch_unit: `(mem_data0 << 8) + mem_data1`, or the fault when `p >= 0xFFF`. It owns no state. -/
def fetchUnit (fetchPc : Word) (m : Memory) : FetchPorts :=
  if 0xFFF ≤ fetchPc.toNat then
    { memAddr0 := none, memAddr1 := none, instrWord := none, fetchFault := true }
  else
    let addr0 := fetchPc.extractLsb' 0 12
    let addr1 := fetchPc.extractLsb' 0 12 + 1
    let data0 := Memory.read m addr0.toNat
    let data1 := Memory.read m addr1.toNat
    { memAddr0 := some addr0
      memAddr1 := some addr1
      instrWord := some ((data0.setWidth 16 <<< 8) + data1.setWidth 16)
      fetchFault := false }

/-! ### decoder (R152) -/

/-- The decoder's `op`: one of five (R152, 40_fetch_decode_step.md R96). -/
inductive UnitOp where
  | halt
  | ret
  | call
  | add
  | unimpl
  deriving DecidableEq, Repr

/-- The outputs of the decoder. -/
structure DecoderPorts where
  fields : Fields
  op : UnitOp
  deriving DecidableEq, Repr

/-- The decoder, its operation by the match and mask columns of 30_encoding.md R75. -/
def decoder (w : Word) : DecoderPorts where
  fields := fieldsOf w
  op :=
    if w &&& 0xFFFF = 0x0000 then .halt
    else if w &&& 0xFFFF = 0x00EE then .ret
    else if w &&& 0xF000 = 0x2000 then .call
    else if w &&& 0xF00F = 0x8004 then .add
    else .unimpl

/-! ### alu (R154) -/

/-- `sum = (a + b) mod 256`. -/
def aluSum (a b : Byte) : Byte := BitVec.ofNat 8 ((a.toNat + b.toNat) % 256)

/-- `carry = 1` if `a + b >= 256`. -/
def aluCarry (a b : Byte) : Bool := decide (256 ≤ a.toNat + b.toNat)

/-! ### register_file (R153) -/

/-- The register_file's write ports: nothing unless `wr_enable`; the flag write to `x[15]` has priority over the result
write. -/
def registerFile (regs : Vector Byte 16) (wrEnable : Bool) (wrIndex : RegIdx) (wrData : Byte) (flagData : Bool) :
    Vector Byte 16 :=
  if wrEnable then
    Vector.ofFn fun r =>
      if r.val = 15 then (if flagData then 1 else 0)
      else if r.val = wrIndex.toNat then wrData
      else regs[r]
  else regs

/-! ### stack_unit (R155) -/

/-- `full`: `sp >= 16`. -/
def stackUnitFull (sp : StackPtr) : Bool := decide (16 ≤ sp.toNat)

/-- `empty`: `sp = 0`. -/
def stackUnitEmpty (sp : StackPtr) : Bool := decide (sp.toNat = 0)

/-- What the control_transfer_logic is told for a RETURN: the stack is empty, or `sp` is one of the unreachable values 17 to
31, where the pop has no meaning and RETURN is to fault (10_state.md R31, 93_implementation_defined.md U4; log 3). For
every legal `sp` it is `empty` itself. -/
def stackUnitNoPop (sp : StackPtr) : Bool := stackUnitEmpty sp || decide (16 < sp.toNat)

/-- `pop_data`: `stack[sp - 1]`; no meaning when the stack is empty, nor for an illegal `sp` above 16, where it would index
outside the stack (10_state.md R31). -/
def popData (stack : Vector Word 16) (sp : StackPtr) : Option Word :=
  if sp.toNat = 0 then none else stack[sp.toNat - 1]?

/-- The stack slots after the step: `push` writes the slot `sp` denotes. -/
def stackAfter (stack : Vector Word 16) (sp : StackPtr) (push : Bool) (pushData : Word) : Vector Word 16 :=
  if push then Vector.ofFn fun k => if k.val = sp.toNat then pushData else stack[k] else stack

/-- The stack pointer after the step; `push` and `pop` are never asserted together. -/
def spAfter (sp : StackPtr) (push pop : Bool) : StackPtr :=
  if push then BitVec.ofNat 5 (sp.toNat + 1) else if pop then BitVec.ofNat 5 (sp.toNat - 1) else sp

/-! ### program_counter (R156) -/

/-- `pc_advanced`: `pc` after the advance. -/
def pcAdvanced (pc : Word) (advance : Bool) : Word := if advance then pc + 2 else pc

/-- The next `pc`: the advance acts first and at most one of the two loads after it. -/
def pcNext (pc : Word) (advance loadNnn loadPop : Bool) (nnn : Addr) (pop : Option Word) : Option Word :=
  if loadNnn then some (0x0#4 ++ nnn) else if loadPop then pop else some (pcAdvanced pc advance)

/-! ### control_transfer_logic (R157) -/

/-- The outputs of the control_transfer_logic within a step. -/
structure Signals where
  advance : Bool
  push : Bool
  pop : Bool
  loadNnn : Bool
  loadPop : Bool
  wrEnable : Bool
  /-- `run_state` next. -/
  runNext : RunState
  /-- The fault raised, `noFault` for none. -/
  fault : FaultCause
  deriving DecidableEq, Repr

/-- The row `fetch_fault = 1` of the decision table. -/
def signalsFetchFault : Signals := ⟨false, false, false, false, false, false, .faulted, .outOfBoundsFetch⟩

/-- The other seven rows of the decision table, in its order (R157); `empty` is `stackUnitNoPop`. -/
def signalsOfOp : UnitOp → (full empty : Bool) → Signals
  | .halt, _, _ => ⟨true, false, false, false, false, false, .halted, .noFault⟩
  | .ret, _, false => ⟨true, false, true, false, true, false, .running, .noFault⟩
  | .ret, _, true => ⟨true, false, false, false, false, false, .faulted, .stackUnderflow⟩
  | .call, false, _ => ⟨true, true, false, true, false, false, .running, .noFault⟩
  | .call, true, _ => ⟨true, false, false, false, false, false, .faulted, .stackOverflow⟩
  | .add, _, _ => ⟨true, false, false, false, false, true, .running, .noFault⟩
  | .unimpl, _, _ => ⟨true, false, false, false, false, false, .faulted, .unimplementedOpcode⟩

/-- The fault record after the step: written only when a fault is raised, with the word, or `pc` for the fetch fault
(R157, 60_exceptions.md R175, R176). -/
def recordAfter (s : State) (fault : FaultCause) (info : Word) : FaultCause × Word :=
  if fault = .noFault then (s.faultCause, s.faultInfo) else (fault, info)

/-! ### The units wired together -/

/-- All state after the step, from the signals and the ports they act on. `none` when `pc` would load a value without
meaning. No unit has a write port to memory (R158). -/
def settle (s : State) (g : Signals) (f : Fields) (info : Word) : Option State :=
  let a := s.regs[f.x.toNat]'f.x.isLt
  let b := s.regs[f.y.toNat]'f.y.isLt
  let record := recordAfter s g.fault info
  (pcNext s.pc g.advance g.loadNnn g.loadPop f.nnn (popData s.stack s.sp)).map fun pc' =>
    { regs := registerFile s.regs g.wrEnable f.x (aluSum a b) (aluCarry a b)
      pc := pc'
      mem := s.mem
      stack := stackAfter s.stack s.sp g.push (pcAdvanced s.pc g.advance)
      sp := spAfter s.sp g.push g.pop
      runState := g.runNext
      faultCause := record.1
      faultInfo := record.2 }

/-- One step of the seven units (R150), for a Running machine: fetch_unit, decoder, then the control_transfer_logic steers
the rest. -/
def unitStep (s : State) : Option State :=
  match (fetchUnit s.pc s.mem).instrWord with
  | none => settle s signalsFetchFault (fieldsOf 0) s.pc
  | some w =>
    let dec := decoder w
    settle s (signalsOfOp dec.op (stackUnitFull s.sp) (stackUnitNoPop s.sp)) dec.fields w

end Sys2Proof.Machine.Units
end

