-- ==== Sys2Proof/Machine/HostPort.lean ====
section
/-! DEFINITION. The host's side before the run (70_reset_and_hazards.md R203 to R205): seeding is no step of the machine
and cannot fault; the time before the run is the choice of the launch state (R205). During the run the host has no move
(R206), so none is modelled. -/

namespace Sys2Proof.Machine

/-- The writes the host may make between reset and the start of the run (R204): a register, a byte of memory, `pc`; and
nothing else. -/
inductive HostWrite where
  | reg (i : RegIdx) (v : Byte)
  | mem (a : Addr) (v : Byte)
  | pc (v : Word)
  deriving DecidableEq, Repr

/-- One write of the host (R204). -/
def hostWrite : HostWrite → State → State
  | .reg i v, s => s.setReg i v
  | .mem a v, s => s.setMem (Memory.write s.mem a.toNat v)
  | .pc v, s => s.setPc v

/-- The host's writes, in order (R204: "any number of times and in any order"). -/
def seed : List HostWrite → State → State
  | [], s => s
  | w :: ws, s => seed ws (hostWrite w s)

/-- The launch state: the reset state with the host's writes applied (R205). -/
def launch (ws : List HostWrite) : State := seed ws State.reset

end Sys2Proof.Machine
end

