-- ==== Sys2Proof/Machine/RunLoop.lean ====
section
/-! DEFINITION. The run loop (40_fetch_decode_step.md R100) and the host's read-out after it (70_reset_and_hazards.md
R207). -/

namespace Sys2Proof.Machine

/-- At most `n` steps of the run loop: the step is applied while `run_state` is Running (R100); a Halted or Faulted state
stays as it is (log 19). -/
def runLoop : Nat → State → State
  | 0, s => s
  | n + 1, s =>
    match step s with
    | .next t => runLoop n t
    | .fault _ => s
    | .refused _ => s

/-- What the host gets (R207): after Halted all state; after Faulted the abort with the fault record and no other state
(60_exceptions.md R178); before the end nothing (R206). -/
inductive ReadOut where
  | stillRunning
  | completed (s : State)
  | aborted (cause : FaultCause) (info : Word)
  deriving DecidableEq, Repr

/-- The host's read-out of a state (R206, R207). -/
def readOut (s : State) : ReadOut :=
  match s.runState with
  | .running => .stillRunning
  | .halted => .completed s
  | .faulted => .aborted s.faultCause s.faultInfo

end Sys2Proof.Machine
end

