-- ==== Sys2Proof/Safety.lean ====
section
/-! DEFINITION. What a legal state and a safe run are, in the terms the statements use. -/

namespace Sys2Proof.Machine

/-- The fault record holds a pair that 60_exceptions.md R175 allows: no fault with 0; a fetch address of 0xFFF or more; a
word outside the four patterns; a CALL word; the RETURN word. -/
def recordLegal : FaultCause → Word → Bool
  | .noFault, info => info == 0
  | .outOfBoundsFetch, info => decide (0xFFF ≤ info.toNat)
  | .unimplementedOpcode, info => decodeWord info == .unimplemented info
  | .stackOverflow, info => info.extractLsb' 12 4 == 0x2
  | .stackUnderflow, info => info == 0x00EE

/-- The invariant of every step: memory canonical, `0 <= sp <= 16` (10_state.md R31), a fault recorded exactly when Faulted
(60_exceptions.md R176), and the record one that R175 allows. -/
structure State.Inv (s : State) : Prop where
  memCanonical : Memory.wf s.mem = true
  spLegal : s.sp.toNat ≤ 16
  faultedIffRecorded : s.runState = .faulted ↔ s.faultCause ≠ .noFault
  recordIsLegal : recordLegal s.faultCause s.faultInfo = true

/-- `pc` and every saved return address lie in 0 to 0x1000 (10_state.md R27). -/
structure State.PcBounded (s : State) : Prop where
  pcInRange : s.pc.toNat ≤ 0x1000
  slotsInRange : ∀ k : BitVec 4, (s.slot k).toNat ≤ 0x1000

/-- The premises every claim about a program shares (70_reset_and_hazards.md R205): empty stack, no fault recorded,
Running. -/
structure State.IsLaunch (s : State) : Prop where
  stackZero : ∀ k : BitVec 4, s.slot k = 0
  spZero : s.sp = 0
  isRunning : s.runState = .running
  noCause : s.faultCause = .noFault
  noInfo : s.faultInfo = 0

/-- The run from `s` ends normally in `t` (70_reset_and_hazards.md R209). A faulted run is never a completed one
(60_exceptions.md R181). -/
def Completes (s t : State) : Prop := ∃ n, runLoop n s = t ∧ t.runState = .halted

/-- The run from `s` ends, normally or not (70_reset_and_hazards.md R209). -/
def Ends (s : State) : Prop := ∃ n, (runLoop n s).runState ≠ .running

/-- The word a fetch of this state reads, for `pc <= 0xFFE` (40_fetch_decode_step.md R90). -/
def State.wordAtPc (s : State) : Word :=
  wordOfBytes (Memory.read s.mem s.pc.toNat) (Memory.read s.mem (s.pc.toNat + 1))

/-- Two states that agree on everything but the general registers. -/
structure SameButRegs (s u : State) : Prop where
  pc : s.pc = u.pc
  mem : s.mem = u.mem
  stack : s.stack = u.stack
  sp : s.sp = u.sp
  runState : s.runState = u.runState
  faultCause : s.faultCause = u.faultCause
  faultInfo : s.faultInfo = u.faultInfo

/-- The instructions of a list executed one after the other, each completing with the machine still Running; `none` as soon
as one does not. -/
def execAll : List Instr → State → Option State
  | [], s => some s
  | i :: rest, s =>
    match exec i s with
    | .next t => if t.runState = .running then execAll rest t else none
    | .fault _ => none
    | .refused _ => none

/-- The fatal condition of a Running state, if its step meets one (60_exceptions.md R177): the fetch first, then by the
word. RETURN meets one with `sp = 0`, and in the unreachable states with `sp` above 16 (log 3). -/
def fatalCondition (s : State) : Option FaultCause :=
  if 0xFFF ≤ s.pc.toNat then some .outOfBoundsFetch
  else
    match decodeWord s.wordAtPc with
    | .unimplemented _ => some .unimplementedOpcode
    | .instr (.call _) => if 16 ≤ s.sp.toNat then some .stackOverflow else none
    | .instr .ret => if s.sp = 0 ∨ 16 < s.sp.toNat then some .stackUnderflow else none
    | .instr .halt => none
    | .instr (.add _ _) => none

end Sys2Proof.Machine
end

