-- ==== Sys2Proof/Certificates/Slice0/Obligations.lean ====
section
/-! DEFINITION. The statements for the provers. Each docstring names the rule of spec/ it formalises, or says what it is
derived from. -/

open Sys2Proof Sys2Proof.Machine

/-! ### Encoding -/

/-- 30_encoding.md R84 (derived there from R75, R81): "Decoding `enc(i)` gives `i` back", here of the bytes in memory order,
with the bytes that follow left over. -/
def Obligations.DecodeOfEncodeGivesInstruction : Prop :=
  ∀ (i : Instr) (rest : List Byte), i.wf = true → decodeBytes (encodeBytes i ++ rest) = .instr i rest

/-- 30_encoding.md R84 (derived there): "encoding the decoding of any of the 4354 instruction words gives the word back", and
so no two words are the same instruction (R81). -/
def Obligations.EncodeOfDecodeGivesBytes : Prop :=
  ∀ (bytes rest : List Byte) (i : Instr), decodeBytes bytes = .instr i rest → bytes = encodeBytes i ++ rest

/-- 30_encoding.md R82 (decision D12) and R84: a written instruction is accepted exactly when its operands are in range, and
then stands for the instruction of the word the table of R82 gives. -/
def Obligations.WrittenFormGivesTableWord : Prop :=
  ∀ a : Asm,
    (a.wf = false → a.toInstr = none) ∧
    (a.wf = true → ∃ i, a.toInstr = some i ∧ i.toAsm = a ∧
      (encode i).toNat = match a with
        | .halt => 0x0000
        | .ret => 0x00EE
        | .call nnn => 0x2000 + nnn
        | .add x y => 0x8004 + x * 2 ^ 8 + y * 2 ^ 4)

/-- 40_fetch_decode_step.md R94: the fields of a word, and the source's instance. -/
def Obligations.FieldsSplitTheWord : Prop :=
  (∀ w : Word,
    (fieldsOf w).c.toNat = w.toNat / 2 ^ 12 ∧
    (fieldsOf w).x.toNat = w.toNat / 2 ^ 8 % 2 ^ 4 ∧
    (fieldsOf w).y.toNat = w.toNat / 2 ^ 4 % 2 ^ 4 ∧
    (fieldsOf w).d.toNat = w.toNat % 2 ^ 4 ∧
    (fieldsOf w).nnn.toNat = w.toNat % 2 ^ 12) ∧
  fieldsOf 0x8014 = { c := 8, x := 0, y := 1, d := 4, nnn := 0x014 }

/-- 40_fetch_decode_step.md R96: `Op(w)`, its five cases, and that the first four exclude each other. -/
def Obligations.ClassificationFollowsPatterns : Prop :=
  ∀ w : Word,
    let f := fieldsOf w
    let isHalt := f.c = 0x0 ∧ f.x = 0x0 ∧ f.y = 0x0 ∧ f.d = 0x0
    let isReturn := f.c = 0x0 ∧ f.x = 0x0 ∧ f.y = 0xE ∧ f.d = 0xE
    let isCall := f.c = 0x2
    let isAdd := f.c = 0x8 ∧ f.d = 0x4
    (decodeWord w = .instr .halt ↔ isHalt) ∧ (isHalt ↔ w = 0x0000) ∧
    (decodeWord w = .instr .ret ↔ isReturn) ∧ (isReturn ↔ w = 0x00EE) ∧
    (∀ nnn, decodeWord w = .instr (.call nnn) ↔ isCall ∧ nnn = f.nnn) ∧
    (∀ x y, decodeWord w = .instr (.add x y) ↔ isAdd ∧ x = f.x ∧ y = f.y) ∧
    (∀ v, decodeWord w = .unimplemented v ↔ (¬isHalt ∧ ¬isReturn ∧ ¬isCall ∧ ¬isAdd) ∧ v = w) ∧
    (isHalt → ¬isReturn ∧ ¬isCall ∧ ¬isAdd) ∧ (isReturn → ¬isCall ∧ ¬isAdd) ∧ (isCall → ¬isAdd)

/-- 30_encoding.md R75, and R76 (derived there): a word matches at most one row of the opcode map, no row exactly when it is
unimplemented, and otherwise the row of the instruction it decodes to. -/
def Obligations.OpcodeMapAgreesWithDecoder : Prop :=
  ∀ w : Word,
    (∀ i, decodeWord w = .instr i →
      (opcodeTable.filter fun r => r.matchesWord w).map OpcodeRow.mnemonic = [i.mnemonic]) ∧
    (decodeWord w = .unimplemented w ↔ (opcodeTable.filter fun r => r.matchesWord w) = [])

/-- Words written out from the spec's encodings (30_encoding.md R75; vectors V-DEC-1 to V-DEC-13 of 95_test_vectors.md). -/
def Obligations.SampleWordsDecode : Prop :=
  decodeBytes [0b00000000, 0b00000000] = .instr .halt [] ∧
  decodeBytes [0b00000000, 0b11101110] = .instr .ret [] ∧
  decodeBytes [0b00100001, 0b00000000] = .instr (.call 0x100) [] ∧
  decodeBytes [0b00100000, 0b11101110] = .instr (.call 0x0EE) [] ∧
  decodeBytes [0b10000000, 0b00010100] = .instr (.add 0 1) [] ∧
  decodeBytes [0b10001111, 0b11110100] = .instr (.add 15 15) [] ∧
  decodeBytes [0b00000000, 0b11101111] = .unimplemented 0x00EF [] ∧
  decodeBytes [0b00001110, 0b11101110] = .unimplemented 0x0EEE []

/-! ### Fetch and the step -/

/-- 40_fetch_decode_step.md R90: the word fetched is `(mem[pc] << 8) | mem[pc + 1]`, at any `pc` up to 0xFFE, odd ones
included. -/
def Obligations.FetchReadsBigEndianWord : Prop :=
  ∀ s : State, s.pc.toNat ≤ 0xFFE →
    ∃ w, fetch s = some w ∧
      w.toNat = (Memory.read s.mem s.pc.toNat).toNat * 2 ^ 8 + (Memory.read s.mem (s.pc.toNat + 1)).toNat

/-- 40_fetch_decode_step.md R91: a fetch at 0xFFF or above faults, `pc` not advanced and nothing executed; below, it always
succeeds. -/
def Obligations.FetchBeyondTopFaults : Prop :=
  (∀ s : State, s.runState = .running → 0xFFF ≤ s.pc.toNat →
    fetch s = none ∧
    step s = .next { s with runState := .faulted, faultCause := .outOfBoundsFetch, faultInfo := s.pc }) ∧
  (∀ s : State, s.pc.toNat ≤ 0xFFE → fetch s ≠ none)

/-- 40_fetch_decode_step.md R93 (and the step, R98): after a successful fetch `pc` is advanced by 2, without wrapping, and the
decoded instruction executes on that state; the advance happens also for a word that then faults. -/
def Obligations.StepRunsDecodedInstruction : Prop :=
  ∀ s : State, s.runState = .running → s.pc.toNat ≤ 0xFFE →
    let bytes := [Memory.read s.mem s.pc.toNat, Memory.read s.mem (s.pc.toNat + 1)]
    (s.pc + 2).toNat = s.pc.toNat + 2 ∧
    (∀ i, decodeBytes bytes = .instr i [] → step s = exec i { s with pc := s.pc + 2 }) ∧
    (∀ w, decodeBytes bytes = .unimplemented w [] →
      step s = .next { s with
        pc := s.pc + 2, runState := .faulted, faultCause := .unimplementedOpcode, faultInfo := w })

/-- 30_encoding.md R79: a word that matches none of the four rows is fatal, never a silent no-operation, and the abort names
the word. -/
def Obligations.WordOutsideMapIsFatal : Prop :=
  ∀ s : State, s.runState = .running → s.pc.toNat ≤ 0xFFE →
    (∀ r ∈ opcodeTable, r.matchesWord s.wordAtPc = false) →
    decodeWord s.wordAtPc = .unimplemented s.wordAtPc ∧
    ∃ t, step s = .next t ∧ t.runState = .faulted ∧ t.faultCause = .unimplementedOpcode ∧
      t.faultInfo = s.wordAtPc

/-- 40_fetch_decode_step.md R99 (derived there): the step is total on Running states, and a state that is not Running has no
successor. That RETURN has one too for the unreachable `sp` of 17 to 31 follows 93_implementation_defined.md U4 (log entry
3); which outcome stands for no successor is log entry 2. -/
def Obligations.RunningStateHasSuccessor : Prop :=
  ∀ s : State, s.runState = .running ↔ ∃ t, step s = .next t

/-- 10_state.md R34: every transition of `run_state`. Among the fatal conditions counted is RETURN's in the unreachable
states with `sp` above 16, which is the model's reading (log entry 3). -/
def Obligations.RunStateTransitions : Prop :=
  (∀ s t : State, step s = .next t → s.runState = .running) ∧
  (∀ s t : State, s.runState = .running → step s = .next t →
    (t.runState = .halted ↔ s.pc.toNat ≤ 0xFFE ∧ decodeWord s.wordAtPc = .instr .halt) ∧
    (t.runState = .faulted ↔ fatalCondition s ≠ none))

/-! ### The instructions -/

/-- 41_system_halt.md R110: HALT changes nothing in execute but `run_state`; its step leaves `pc` just past it, and no further
step is taken. That a further step answers the model's own fault `runHalted` is log entry 2 (DEDUCED), and that the run
loop leaves the state as it is is log entry 19 (DESIGN CHOICE). -/
def Obligations.HaltStopsTheRun : Prop :=
  encode .halt = 0x0000 ∧
  (∀ s : State, exec .halt s = .next { s with runState := .halted }) ∧
  (∀ s : State, s.runState = .running → s.pc.toNat ≤ 0xFFE → s.wordAtPc = 0x0000 →
    ∃ t, step s = .next t ∧ t = { s with pc := s.pc + 2, runState := .halted } ∧
      step t = .fault .runHalted ∧ ∀ n, runLoop n t = t)

/-- ADD completes on every operand pair (42_arithmetic_add.md R120): the sum modulo 256 to `x[x]`, the carry to `x[15]`, the
carry winning when `x = 15` (the spec's decision D4, R123) and register 15 read as an ordinary operand (decision D5,
R124); every other register and all other state unchanged. -/
def Obligations.AddWritesSumThenCarry : Prop :=
  ∀ (x y : RegIdx) (s : State),
    let sum := (s.reg x).toNat + (s.reg y).toNat
    ∃ t, exec (.add x y) s = .next t ∧
      (∀ r : RegIdx, (t.reg r).toNat =
        if r = 15 then (if 256 ≤ sum then 1 else 0) else if r = x then sum % 256 else (s.reg r).toNat) ∧
      t.pc = s.pc ∧ t.mem = s.mem ∧ t.stack = s.stack ∧ t.sp = s.sp ∧ t.runState = s.runState ∧
      t.faultCause = s.faultCause ∧ t.faultInfo = s.faultInfo

/-- 42_arithmetic_add.md R121: the alu's sum and carry are the exact sum; ADD uses them for every target but register 15; the
previous value of `x[15]` does not enter as a carry-in. -/
def Obligations.AluComputesExactSum : Prop :=
  (∀ a b : Byte,
    (addSum a b).toNat = (a.toNat + b.toNat) % 256 ∧
    (addCarry a b = true ↔ 256 ≤ a.toNat + b.toNat) ∧
    (if addCarry a b then 256 else 0) + (addSum a b).toNat = a.toNat + b.toNat) ∧
  (∀ (x y : RegIdx) (s : State), x ≠ 15 → ∃ t, exec (.add x y) s = .next t ∧
    (t.reg x).toNat = ((s.reg x).toNat + (s.reg y).toNat) % 256 ∧
    t.reg 15 = if 256 ≤ (s.reg x).toNat + (s.reg y).toNat then 1 else 0) ∧
  (∀ (x y : RegIdx) (s : State) (v : Byte), x ≠ 15 → y ≠ 15 →
    exec (.add x y) (s.setReg 15 v) = exec (.add x y) s)

/-- 42_arithmetic_add.md R122: every ADD rewrites the flag, to exactly 0 or exactly 1, whatever it held before. -/
def Obligations.CarryIsRewrittenNotAccumulated : Prop :=
  ∀ (x y : RegIdx) (s : State), ∃ t, exec (.add x y) s = .next t ∧
    (t.reg 15 = 0 ∨ t.reg 15 = 1) ∧
    (t.reg 15 = 1 ↔ 256 ≤ (s.reg x).toNat + (s.reg y).toNat)

/-- 42_arithmetic_add.md R123 and R124 (derived there, decisions D4 and D5): register 15 as destination, as source, the same
register twice, both, and adding zero. -/
def Obligations.AddRegisterCoincidences : Prop :=
  ∀ s : State,
    (∀ y : RegIdx, exec (.add 15 y) s =
      .next (s.setReg 15 (if 256 ≤ (s.reg 15).toNat + (s.reg y).toNat then 1 else 0))) ∧
    (∀ x : RegIdx, x ≠ 15 → ∃ t, exec (.add x 15) s = .next t ∧
      (t.reg x).toNat = ((s.reg x).toNat + (s.reg 15).toNat) % 256) ∧
    (∀ x : RegIdx, x ≠ 15 → ∃ t, exec (.add x x) s = .next t ∧
      (t.reg x).toNat = 2 * (s.reg x).toNat % 256 ∧ t.reg 15 = if 128 ≤ (s.reg x).toNat then 1 else 0) ∧
    exec (.add 15 15) s = .next (s.setReg 15 (if 128 ≤ (s.reg 15).toNat then 1 else 0)) ∧
    (∀ x y : RegIdx, x ≠ 15 → y ≠ 15 → s.reg y = 0 → exec (.add x y) s = .next (s.setReg 15 0))

/-- 42_arithmetic_add.md R125 item 2 (derived there): `ADD Rx, Ry` and `ADD Ry, Rx` differ only in which register receives the
sum. -/
def Obligations.AddCommutes : Prop :=
  ∀ (x y : RegIdx) (s t u : State), exec (.add x y) s = .next t → exec (.add y x) s = .next u →
    t.reg 15 = u.reg 15 ∧ (x ≠ 15 → y ≠ 15 → t.reg x = u.reg y) ∧
    (∀ r : RegIdx, r ≠ x → r ≠ y → t.reg r = u.reg r) ∧ SameButRegs t u

/-- 43_control_transfer.md R132: CALL pushes the advanced `pc` and jumps to `nnn`, or on a full stack raises `StackOverflow`
with nothing else written. -/
def Obligations.CallPushesReturnAddress : Prop :=
  ∀ (nnn : Addr) (s : State),
    (encode (.call nnn)).toNat = 0x2000 + nnn.toNat ∧
    (s.sp.toNat ≤ 15 → ∃ t, exec (.call nnn) s = .next t ∧
      t.sp.toNat = s.sp.toNat + 1 ∧ t.pc.toNat = nnn.toNat ∧
      (∀ k : BitVec 4, t.slot k = if k.toNat = s.sp.toNat then s.pc else s.slot k) ∧
      t.regs = s.regs ∧ t.mem = s.mem ∧ t.runState = s.runState ∧ t.faultCause = s.faultCause ∧
      t.faultInfo = s.faultInfo) ∧
    (16 ≤ s.sp.toNat → exec (.call nnn) s =
      .next { s with runState := .faulted, faultCause := .stackOverflow, faultInfo := encode (.call nnn) })

/-- RETURN completes on every non-empty stack (43_control_transfer.md R133): the newest live entry goes to `pc`, all 16 bits,
and `sp` falls by 1. That the popped slot keeps its value is the spec's decision D10 (R131). -/
def Obligations.ReturnPopsNewestAddress : Prop :=
  ∀ s : State, 1 ≤ s.sp.toNat → s.sp.toNat ≤ 16 →
    ∃ t, exec .ret s = .next t ∧ t.sp.toNat + 1 = s.sp.toNat ∧
      (∀ k : BitVec 4, k.toNat + 1 = s.sp.toNat → t.pc = s.slot k) ∧
      t.stack = s.stack ∧ t.regs = s.regs ∧ t.mem = s.mem ∧ t.runState = s.runState ∧
      t.faultCause = s.faultCause ∧ t.faultInfo = s.faultInfo

/-- RETURN on an empty stack raises `StackUnderflow(0x00EE)` and writes nothing else (43_control_transfer.md R133,
60_exceptions.md R174; what the record holds is the spec's decision D9). -/
def Obligations.ReturnOnEmptyStackFaults : Prop :=
  encode .ret = 0x00EE ∧
  ∀ s : State, s.sp = 0 → exec .ret s =
    .next { s with runState := .faulted, faultCause := .stackUnderflow, faultInfo := 0x00EE }

/-- 10_state.md R31 and 93_implementation_defined.md U4, `sp` in 17 to 31, unreachable: RETURN faults rather than index
outside the stack, and CALL raises `StackOverflow`. That RETURN's cause is `StackUnderflow` with its word, and that
nothing else is written, is the model's reading (log entry 3). -/
def Obligations.IllegalStackPointerFaults : Prop :=
  ∀ s : State, 17 ≤ s.sp.toNat →
    exec .ret s = .next { s with runState := .faulted, faultCause := .stackUnderflow, faultInfo := 0x00EE } ∧
    ∀ nnn, exec (.call nnn) s =
      .next { s with runState := .faulted, faultCause := .stackOverflow, faultInfo := encode (.call nnn) }

/-- Push followed by pop returns the pushed value and restores `sp`, the live slots below untouched (43_control_transfer.md
R130, R131). -/
def Obligations.PopAfterPushGivesValue : Prop :=
  ∀ (v : Word) (s : State), s.sp.toNat ≤ 15 →
    stackTop (stackPush v s) = v ∧ (stackDrop (stackPush v s)).sp = s.sp ∧
    ∀ k : BitVec 4, k.toNat < s.sp.toNat → (stackDrop (stackPush v s)).slot k = s.slot k

/-- What each instruction leaves unchanged, in any case in which it answers a next state (10_state.md R21; 20_memory.md R58;
41_system_halt.md R110; 42_arithmetic_add.md R120; 43_control_transfer.md R132, R133; the popped slot by decision D10). No
instruction stores to memory, so every address reads as before; the fault record changes only where a fault is taken;
CALL and RETURN write `pc` and `sp`, CALL the slot at `sp`, HALT `run_state`. -/
def Obligations.InstructionFrames : Prop :=
  ∀ (i : Instr) (s t : State), exec i s = .next t →
    (∀ a, Memory.read t.mem a = Memory.read s.mem a) ∧
    (t.runState ≠ .faulted → t.faultCause = s.faultCause ∧ t.faultInfo = s.faultInfo) ∧
    match i with
    | .halt => (∀ r, t.reg r = s.reg r) ∧ t.pc = s.pc ∧ t.sp = s.sp ∧ (∀ k, t.slot k = s.slot k) ∧
        t.faultCause = s.faultCause ∧ t.faultInfo = s.faultInfo
    | .ret => (∀ r, t.reg r = s.reg r) ∧ (∀ k, t.slot k = s.slot k) ∧
        (t.runState = s.runState ∨ t.runState = .faulted)
    | .call _ => (∀ r, t.reg r = s.reg r) ∧ (∀ k : BitVec 4, k.toNat ≠ s.sp.toNat → t.slot k = s.slot k) ∧
        (t.runState = s.runState ∨ t.runState = .faulted)
    | .add x _ => (∀ r, r ≠ x → r ≠ 15 → t.reg r = s.reg r) ∧ t.pc = s.pc ∧ t.sp = s.sp ∧
        (∀ k, t.slot k = s.slot k) ∧ t.runState = s.runState ∧ t.faultCause = s.faultCause ∧ t.faultInfo = s.faultInfo

/-! ### CALL and RETURN together -/

/-- 43_control_transfer.md R134 (derived there from R132, R133; the dead slot by decision D10): a CALL whose target holds a
RETURN comes back to the instruction after the CALL. -/
def Obligations.CallThenReturnResumes : Prop :=
  ∀ (nnn : Addr) (s : State), s.runState = .running → s.pc.toNat ≤ 0xFFE → s.sp.toNat ≤ 15 →
    s.wordAtPc = encode (.call nnn) → nnn.toNat ≤ 0xFFE →
    wordOfBytes (Memory.read s.mem nnn.toNat) (Memory.read s.mem (nnn.toNat + 1)) = encode .ret →
    ∃ t u, step s = .next t ∧ step t = .next u ∧ u.pc.toNat = s.pc.toNat + 2 ∧ u.sp = s.sp ∧
      (∀ k : BitVec 4, u.slot k = if k.toNat = s.sp.toNat then s.pc + 2 else s.slot k) ∧
      u.regs = s.regs ∧ u.mem = s.mem ∧ u.runState = .running

/-- 43_control_transfer.md R135 (derived there): "Nested CALLs up to stack capacity (16) succeed; a 17th CALL without an
intervening RETURN is fatal". -/
def Obligations.NestedCallsSucceedToCapacity : Prop :=
  ∀ (targets : List Addr) (s : State), s.runState = .running → s.sp = 0 →
    (targets.length ≤ 16 →
      ∃ t, execAll (targets.map Instr.call) s = some t ∧ t.sp.toNat = targets.length ∧
        (targets.length = 16 → ∀ nnn, ∃ u, exec (.call nnn) t = .next u ∧ u.runState = .faulted ∧
          u.faultCause = .stackOverflow)) ∧
    (17 ≤ targets.length → execAll (targets.map Instr.call) s = none)

/-- 43_control_transfer.md R135 (derived there): the live entries count the CALLs executed less the RETURNs executed. -/
def Obligations.LiveEntriesCountCallsLessReturns : Prop :=
  ∀ (is : List Instr) (s t : State), execAll is s = some t →
    t.sp.toNat + is.count .ret = s.sp.toNat + is.countP (fun i => i.mnemonic == "CALL")

/-- 10_state.md R31: `0 <= sp <= 16` at reset, in every launch state and after every step, because CALL and RETURN fault
instead of moving `sp` out of range. -/
def Obligations.StackPointerStaysLegal : Prop :=
  State.reset.sp.toNat ≤ 16 ∧
  (∀ ws, (launch ws).sp = 0) ∧
  (∀ s t : State, s.sp.toNat ≤ 16 → step s = .next t → t.sp.toNat ≤ 16) ∧
  (∀ (s : State) (nnn : Addr), 16 ≤ s.sp.toNat →
    ∃ t, exec (.call nnn) s = .next t ∧ t.runState = .faulted ∧ t.faultCause = .stackOverflow ∧ t.sp = s.sp) ∧
  (∀ s : State, s.sp = 0 →
    ∃ t, exec .ret s = .next t ∧ t.runState = .faulted ∧ t.faultCause = .stackUnderflow ∧ t.sp = s.sp)

/-! ### Fatal conditions -/

/-- 60_exceptions.md R175 to R177 (cause codes and record are the spec's decisions D8, D9; R177 derived there; RETURN with `sp`
above 16, unreachable, is the model's reading, log entry 3): a step records exactly the one fatal condition it meets, with
the word, or `pc` for the fetch fault, and that is what the host is given; a step that meets none leaves the record
alone. -/
def Obligations.FaultRecordNamesTheCondition : Prop :=
  ∀ s t : State, step s = .next t →
    (∀ c, fatalCondition s = some c →
      t.faultCause = c ∧ t.faultInfo = (if c = .outOfBoundsFetch then s.pc else s.wordAtPc) ∧
      readOut t = .aborted t.faultCause t.faultInfo) ∧
    (fatalCondition s = none → t.runState ≠ .faulted ∧ t.faultCause = s.faultCause ∧ t.faultInfo = s.faultInfo)

/-- The numbers of `run_state` (10_state.md R33, decision D14) and `fault_cause` (60_exceptions.md R175, decision D8). -/
def Obligations.StatusCodesAreAsListed : Prop :=
  RunState.running.code = 0 ∧ RunState.halted.code = 1 ∧ RunState.faulted.code = 2 ∧
  FaultCause.noFault.code = 0 ∧ FaultCause.outOfBoundsFetch.code = 1 ∧ FaultCause.unimplementedOpcode.code = 2 ∧
  FaultCause.stackOverflow.code = 3 ∧ FaultCause.stackUnderflow.code = 4

/-- 60_exceptions.md R178 (decision D9) and R179 (derived there): a fault has no effect but the record and, after a successful
fetch, the advance of `pc`. -/
def Obligations.FaultsArePrecise : Prop :=
  ∀ s t : State, step s = .next t → t.runState = .faulted →
    t.regs = s.regs ∧ t.mem = s.mem ∧ t.stack = s.stack ∧ t.sp = s.sp ∧
    t.pc = if 0xFFF ≤ s.pc.toNat then s.pc else s.pc + 2

/-! ### The whole machine -/

/-- 10_state.md R23 and R32 and 20_memory.md R59: registers, memory, stack and stack pointer are 0 after reset, and two bytes
that nobody seeded are fetched as 0x0000, which is HALT. -/
def Obligations.ResetZeroesData : Prop :=
  (∀ r, State.reset.reg r = 0) ∧ (∀ a, Memory.read State.reset.mem a = 0) ∧
  (∀ k, State.reset.slot k = 0) ∧ State.reset.sp = 0 ∧
  (∀ s : State, s.mem = State.reset.mem → s.pc.toNat ≤ 0xFFE →
    fetch s = some 0x0000 ∧ decodeWord 0x0000 = .instr .halt)

/-- 70_reset_and_hazards.md R200: `pc` 0 and Running after reset (Running by decision D14), no fault recorded (decision D9), and
no step of the machine leaves Halted or Faulted. -/
def Obligations.ResetRunsFromZeroWithNoFault : Prop :=
  State.reset.pc = 0 ∧ State.reset.runState = .running ∧ State.reset.faultCause.code = 0 ∧
  State.reset.faultInfo = 0 ∧
  (∀ s : State, s.runState ≠ .running → ∀ t, step s ≠ .next t)

/-- 41_system_halt.md R112 item 1 (derived there): the unseeded machine executes one step and ends Halted with `pc = 2`. -/
def Obligations.UnseededMachineHaltsAtOnce : Prop :=
  step State.reset = .next { State.reset with pc := 2, runState := .halted }

/-- 70_reset_and_hazards.md R204 and R205 (decisions D7, D14): the states the host's seeding can reach are exactly the launch
states: registers, memory and `pc` arbitrary, everything else as reset leaves it. -/
def Obligations.SeedingReachesExactlyLaunchStates : Prop :=
  ∀ s : State, (∃ ws, launch ws = s) ↔ s.IsLaunch ∧ Memory.wf s.mem = true

/-- The invariant holds after reset. -/
def Obligations.InvariantHoldsAtReset : Prop := State.reset.Inv

/-- The invariant holds in every launch state (70_reset_and_hazards.md R205). -/
def Obligations.InvariantHoldsAtLaunch : Prop := ∀ ws, (launch ws).Inv

/-- Every step keeps the invariant: memory canonical, `sp` legal (10_state.md R31), a fault recorded exactly when Faulted
(60_exceptions.md R176, decision D9), and the record one that 60_exceptions.md R175 allows (decision D8, D9). -/
def Obligations.StepKeepsInvariant : Prop :=
  ∀ s t : State, s.Inv → step s = .next t → t.Inv

/-- 10_state.md R27 (decision D3, derived there): from a launch with `pc <= 0xFFF`, `pc` and every saved address stay in 0 to
0x1000. -/
def Obligations.PcNeverLeavesMemoryByMoreThanOne : Prop :=
  (∀ ws, (launch ws).pc.toNat ≤ 0xFFF → (launch ws).PcBounded) ∧
  (∀ s t : State, s.PcBounded → step s = .next t → t.PcBounded)

/-- 20_memory.md R58 (derived there, decision D19): memory at the end of a run is memory at its start, byte for byte; the run
as a number of steps (log entry 19). -/
def Obligations.RunNeverWritesMemory : Prop :=
  ∀ (n : Nat) (s : State) (a : Nat), Memory.read (runLoop n s).mem a = Memory.read s.mem a

/-- 10_state.md R21: only ADD touches the register file; a step whose word is not an ADD leaves every register, and ADD Rx, Ry
writes `x[x]` and `x[15]` from `x[x]` and `x[y]` alone. -/
def Obligations.OnlyAddTouchesRegisters : Prop :=
  (∀ s t : State, step s = .next t → (∀ x y, decodeWord s.wordAtPc ≠ .instr (.add x y)) → t.regs = s.regs) ∧
  (∀ (x y : RegIdx) (s u t v : State), exec (.add x y) s = .next t → exec (.add x y) u = .next v →
    s.reg x = u.reg x → s.reg y = u.reg y →
    t.reg x = v.reg x ∧ t.reg 15 = v.reg 15 ∧ ∀ r, r ≠ x → r ≠ 15 → t.reg r = s.reg r ∧ v.reg r = u.reg r)

/-- 43_control_transfer.md R138 (derived there): "No register value ever influences `pc`", nor anything else but the
registers: two runs that start alike but for the registers stay alike but for the registers, after any number of steps
(log entry 19). -/
def Obligations.RegistersNeverSteerTheRun : Prop :=
  ∀ (n : Nat) (s u : State), SameButRegs s u → SameButRegs (runLoop n s) (runLoop n u)

/-- 41_system_halt.md R111: HALT is the only way a run ends normally; every other end is a fault that some step of the run
met. The run is the model's loop of a number of steps (log entry 19), and RETURN's fault in the unreachable states with
`sp` above 16 is the model's reading (log entry 3). -/
def Obligations.HaltIsTheOnlyNormalEnd : Prop :=
  ∀ s : State, s.runState = .running →
    (∀ t, Completes s t ↔ ∃ n, (runLoop n s).runState = .running ∧ (runLoop n s).pc.toNat ≤ 0xFFE ∧
      (runLoop n s).wordAtPc = 0x0000 ∧
      t = { runLoop n s with pc := (runLoop n s).pc + 2, runState := .halted }) ∧
    (∀ n, (runLoop n s).runState ≠ .running → (runLoop n s).runState ≠ .halted →
      ∃ k, k < n ∧ (runLoop k s).runState = .running ∧ fatalCondition (runLoop k s) ≠ none)

/-- 40_fetch_decode_step.md R102 (derived there): every run from a launch state reaches Halted or Faulted after finitely many
steps; here from every state, those with an unreachable `sp` included (log entry 3; the run as a number of steps, log
entry 19). -/
def Obligations.EveryRunEnds : Prop := ∀ s : State, Ends s

/-- 45_unit_interfaces.md R157 (decision D13): the seven units wired together make the same step as R98, state for state, the
unreachable `sp` of 17 to 31 included (log entry 3). -/
def Obligations.UnitsMakeTheStep : Prop :=
  ∀ s t : State, s.runState = .running → (Units.unitStep s = some t ↔ step s = .next t)

/-- 70_reset_and_hazards.md R206 and R207 (decision D7): what the host reads, by the run state. -/
def Obligations.HostReadsStateOnlyAfterHalt : Prop :=
  ∀ s : State,
    (s.runState = .running → readOut s = .stillRunning) ∧
    (s.runState = .halted → readOut s = .completed s) ∧
    (s.runState = .faulted → readOut s = .aborted s.faultCause s.faultInfo)
end

