-- ==== Sys2Proof/Laws/Memory.lean ====
section
/-! SUPPORT. The laws of memory: a write keeps the canonical form, a read after a write, and canonical memories that read
alike are equal. -/

namespace Sys2Proof.Machine

@[simp] theorem Memory.read_nil (a : Nat) : Memory.read [] a = 0 := rfl

@[simp] theorem Memory.read_cell (k : Nat) (v : Byte) (m : Memory) (a : Nat) :
    Memory.read ((k, v) :: m) a = if k = a then v else Memory.read m a := rfl

theorem Memory.wfFrom_cell {lo k : Nat} {v : Byte} {m : Memory} :
    Memory.wfFrom lo ((k, v) :: m) = true ↔ lo ≤ k ∧ k < 4096 ∧ v ≠ 0 ∧ Memory.wfFrom (k + 1) m = true := by
  simp only [Memory.wfFrom, Bool.and_eq_true, decide_eq_true_iff, and_assoc]
  exact Iff.rfl

/-- A memory canonical from `hi` on is canonical from any lower address on. -/
theorem Memory.wfFrom_lower {lo hi : Nat} {m : Memory} (h : Memory.wfFrom hi m = true) (le : lo ≤ hi) :
    Memory.wfFrom lo m = true := by
  cases m with
  | nil => rfl
  | cons c m =>
    obtain ⟨k, v⟩ := c
    rw [Memory.wfFrom_cell] at h ⊢
    exact ⟨le.trans h.1, h.2⟩

/-- Below its first address a canonical memory reads 0. -/
theorem Memory.read_below {lo : Nat} {m : Memory} (h : Memory.wfFrom lo m = true) {a : Nat} (lt : a < lo) :
    Memory.read m a = 0 := by
  induction m generalizing lo with
  | nil => rfl
  | cons c m ih =>
    obtain ⟨k, v⟩ := c
    rw [Memory.wfFrom_cell] at h
    rw [Memory.read_cell, if_neg (by omega)]
    exact ih h.2.2.2 (by omega)

theorem Memory.cons_wfFrom {lo a : Nat} {v : Byte} {m : Memory} (h : Memory.wfFrom (a + 1) m = true) (le : lo ≤ a)
    (lt : a < 4096) : Memory.wfFrom lo (Memory.cons a v m) = true := by
  unfold Memory.cons Memory.unlisted
  split
  · exact Memory.wfFrom_lower h (by omega)
  · exact Memory.wfFrom_cell.2 ⟨le, lt, ‹_›, h⟩

/-- A write keeps the canonical form from any address at or below the one written. -/
theorem Memory.write_wfFrom {lo a : Nat} {m : Memory} (v : Byte) (h : Memory.wfFrom lo m = true) (le : lo ≤ a)
    (lt : a < 4096) : Memory.wfFrom lo (Memory.write m a v) = true := by
  induction m generalizing lo with
  | nil => exact Memory.cons_wfFrom rfl le lt
  | cons c m ih =>
    obtain ⟨k, u⟩ := c
    obtain ⟨h1, h2, h3, h4⟩ := Memory.wfFrom_cell.1 h
    unfold Memory.write
    split
    · exact Memory.cons_wfFrom (Memory.wfFrom_cell.2 ⟨by omega, h2, h3, h4⟩) le lt
    · split
      · subst a
        exact Memory.cons_wfFrom h4 le lt
      · exact Memory.wfFrom_cell.2 ⟨h1, h2, h3, ih h4 (by omega)⟩

/-- Every write inside memory keeps the canonical form. -/
theorem Memory.write_wf {a : Nat} {m : Memory} (v : Byte) (h : Memory.wf m = true) (lt : a < 4096) :
    Memory.wf (Memory.write m a v) = true :=
  Memory.write_wfFrom v h (Nat.zero_le _) lt

theorem Memory.read_cons {a b lo : Nat} {v : Byte} {m : Memory} (h : Memory.wfFrom lo m = true) (lt : a < lo) :
    Memory.read (Memory.cons a v m) b = if b = a then v else Memory.read m b := by
  unfold Memory.cons Memory.unlisted
  split
  · split
    · subst b v
      exact Memory.read_below h lt
    · rfl
  · simp [eq_comm]

theorem Memory.read_write_from {lo a b : Nat} {m : Memory} (v : Byte) (h : Memory.wfFrom lo m = true) :
    Memory.read (Memory.write m a v) b = if b = a then v else Memory.read m b := by
  induction m generalizing lo with
  | nil => exact Memory.read_cons (lo := a + 1) rfl (by omega)
  | cons c m ih =>
    obtain ⟨k, u⟩ := c
    obtain ⟨h1, h2, h3, h4⟩ := Memory.wfFrom_cell.1 h
    unfold Memory.write
    split
    · exact Memory.read_cons (lo := k) (Memory.wfFrom_cell.2 ⟨le_refl _, h2, h3, h4⟩) ‹_›
    · split
      · subst a
        rw [Memory.read_cons h4 (by omega), Memory.read_cell]
        by_cases e : b = k
        · simp [e]
        · rw [if_neg e, if_neg e, if_neg (Ne.symm e)]
      · rw [Memory.read_cell, Memory.read_cell, ih h4]
        by_cases e : k = b
        · subst b
          rw [if_pos rfl, if_neg (by omega), if_pos rfl]
        · rw [if_neg e, if_neg e]

/-- The byte written reads back, and every other byte reads as before. -/
theorem Memory.read_write {a b : Nat} {m : Memory} (v : Byte) (h : Memory.wf m = true) :
    Memory.read (Memory.write m a v) b = if b = a then v else Memory.read m b :=
  Memory.read_write_from v h

theorem Memory.eq_of_read_from {lo : Nat} {m n : Memory} (hm : Memory.wfFrom lo m = true)
    (hn : Memory.wfFrom lo n = true) (h : ∀ a, Memory.read m a = Memory.read n a) : m = n := by
  induction m generalizing lo n with
  | nil =>
    cases n with
    | nil => rfl
    | cons c n =>
      obtain ⟨k, v⟩ := c
      have h0 := h k
      rw [Memory.wfFrom_cell] at hn
      simp only [Memory.read_nil, Memory.read_cell] at h0
      exact absurd (by simpa using h0.symm) hn.2.2.1
  | cons c m ih =>
    obtain ⟨k, v⟩ := c
    obtain ⟨-, hk, hv, hm'⟩ := Memory.wfFrom_cell.1 hm
    cases n with
    | nil =>
      have h0 := h k
      simp only [Memory.read_nil, Memory.read_cell] at h0
      exact absurd (by simpa using h0) hv
    | cons d n =>
      obtain ⟨j, u⟩ := d
      obtain ⟨-, hj, hu, hn'⟩ := Memory.wfFrom_cell.1 hn
      have hkj : k = j := by
        by_contra ne
        rcases Nat.lt_or_gt_of_ne ne with lt | lt
        · have h0 := h k
          rw [Memory.read_cell, if_pos rfl, Memory.read_cell, if_neg (by omega), Memory.read_below hn' (by omega)] at h0
          exact hv h0
        · have h0 := h j
          rw [Memory.read_cell, if_neg (by omega), Memory.read_cell, if_pos rfl, Memory.read_below hm' (by omega)] at h0
          exact hu h0.symm
      subst j
      have hvu : v = u := by simpa using h k
      subst u
      rw [ih hm' hn']
      intro a
      by_cases e : k = a
      · subst a
        rw [Memory.read_below hm' (by omega), Memory.read_below hn' (by omega)]
      · simpa [Memory.read_cell, e] using h a

/-- Canonical memories that read alike everywhere are equal data. -/
theorem Memory.eq_of_read {m n : Memory} (hm : Memory.wf m = true) (hn : Memory.wf n = true)
    (h : ∀ a, Memory.read m a = Memory.read n a) : m = n :=
  Memory.eq_of_read_from hm hn h

/-- Reset memory is canonical. -/
theorem reset_mem_wf : Memory.wf State.reset.mem = true := rfl

end Sys2Proof.Machine
end

