-- ==== Sys2Proof/Laws/PerInstr.lean ====
section
/-! SUPPORT. What holds of every instruction as syntax, one lemma per constructor. -/

/-- The encoded word of an instruction satisfies the match and mask of a row of the opcode map that bears its mnemonic
(30_encoding.md R75). -/
def Sys2Proof.Laws.RowMatch.Statement (i : Sys2Proof.Instr) : Prop :=
  ∃ r ∈ Sys2Proof.opcodeTable, r.mnemonic = i.mnemonic ∧ r.matchesWord (Sys2Proof.encode i) = true

namespace Sys2Proof.Laws.RowMatch

/-- The low twelve bits do not reach a mask on the top nibble. -/
theorem append_and_top (c : BitVec 4) (v : BitVec 12) : (c ++ v : BitVec 16) &&& 0xF000#16 = c ++ 0#12 := by
  have h : (0xF000#16 : BitVec 16) = (0xF#4 ++ 0#12 : BitVec 16) := by decide
  rw [h, BitVec.and_append]
  simp
  rw [show (15#4 : BitVec 4) = BitVec.allOnes 4 from rfl, BitVec.and_allOnes]

theorem halt : Statement .halt := ⟨_, .head _, rfl, by decide⟩

theorem ret : Statement .ret := ⟨_, .tail _ (.head _), rfl, by decide⟩

theorem call (nnn : Addr) : Statement (.call nnn) := by
  refine ⟨_, .tail _ (.tail _ (.head _)), rfl, ?_⟩
  show ((0x2#4 ++ nnn : BitVec 16) &&& 0xF000#16) == 0x2000#16
  rw [append_and_top]
  decide

theorem add (x y : RegIdx) : Statement (.add x y) := by
  refine ⟨_, .tail _ (.tail _ (.tail _ (.head _))), rfl, ?_⟩
  revert x y
  decide

end Sys2Proof.Laws.RowMatch
end

