-- ==== Sys2Proof/Laws/State.lean ====
section
/-! SUPPORT. One lemma per field per update of the state, each true by unfolding the update once, and the read-after-write
laws of the register file and of the call stack's slots. -/

namespace Sys2Proof.Machine

variable (s : State)

/-! ### setReg -/

@[simp] theorem State.setReg_pc (i : RegIdx) (v : Byte) : (s.setReg i v).pc = s.pc := rfl
@[simp] theorem State.setReg_mem (i : RegIdx) (v : Byte) : (s.setReg i v).mem = s.mem := rfl
@[simp] theorem State.setReg_stack (i : RegIdx) (v : Byte) : (s.setReg i v).stack = s.stack := rfl
@[simp] theorem State.setReg_sp (i : RegIdx) (v : Byte) : (s.setReg i v).sp = s.sp := rfl
@[simp] theorem State.setReg_runState (i : RegIdx) (v : Byte) : (s.setReg i v).runState = s.runState := rfl
@[simp] theorem State.setReg_faultCause (i : RegIdx) (v : Byte) : (s.setReg i v).faultCause = s.faultCause := rfl
@[simp] theorem State.setReg_faultInfo (i : RegIdx) (v : Byte) : (s.setReg i v).faultInfo = s.faultInfo := rfl
@[simp] theorem State.setReg_slot (i : RegIdx) (v : Byte) (j : BitVec 4) : (s.setReg i v).slot j = s.slot j := rfl

/-! ### setPc -/

@[simp] theorem State.setPc_regs (v : Word) : (s.setPc v).regs = s.regs := rfl
@[simp] theorem State.setPc_pc (v : Word) : (s.setPc v).pc = v := rfl
@[simp] theorem State.setPc_mem (v : Word) : (s.setPc v).mem = s.mem := rfl
@[simp] theorem State.setPc_stack (v : Word) : (s.setPc v).stack = s.stack := rfl
@[simp] theorem State.setPc_sp (v : Word) : (s.setPc v).sp = s.sp := rfl
@[simp] theorem State.setPc_runState (v : Word) : (s.setPc v).runState = s.runState := rfl
@[simp] theorem State.setPc_faultCause (v : Word) : (s.setPc v).faultCause = s.faultCause := rfl
@[simp] theorem State.setPc_faultInfo (v : Word) : (s.setPc v).faultInfo = s.faultInfo := rfl
@[simp] theorem State.setPc_reg (v : Word) (j : RegIdx) : (s.setPc v).reg j = s.reg j := rfl
@[simp] theorem State.setPc_slot (v : Word) (j : BitVec 4) : (s.setPc v).slot j = s.slot j := rfl

/-! ### setMem -/

@[simp] theorem State.setMem_regs (m : Memory) : (s.setMem m).regs = s.regs := rfl
@[simp] theorem State.setMem_pc (m : Memory) : (s.setMem m).pc = s.pc := rfl
@[simp] theorem State.setMem_mem (m : Memory) : (s.setMem m).mem = m := rfl
@[simp] theorem State.setMem_stack (m : Memory) : (s.setMem m).stack = s.stack := rfl
@[simp] theorem State.setMem_sp (m : Memory) : (s.setMem m).sp = s.sp := rfl
@[simp] theorem State.setMem_runState (m : Memory) : (s.setMem m).runState = s.runState := rfl
@[simp] theorem State.setMem_faultCause (m : Memory) : (s.setMem m).faultCause = s.faultCause := rfl
@[simp] theorem State.setMem_faultInfo (m : Memory) : (s.setMem m).faultInfo = s.faultInfo := rfl
@[simp] theorem State.setMem_reg (m : Memory) (j : RegIdx) : (s.setMem m).reg j = s.reg j := rfl
@[simp] theorem State.setMem_slot (m : Memory) (j : BitVec 4) : (s.setMem m).slot j = s.slot j := rfl

/-! ### setSlot -/

@[simp] theorem State.setSlot_regs (k : BitVec 4) (v : Word) : (s.setSlot k v).regs = s.regs := rfl
@[simp] theorem State.setSlot_pc (k : BitVec 4) (v : Word) : (s.setSlot k v).pc = s.pc := rfl
@[simp] theorem State.setSlot_mem (k : BitVec 4) (v : Word) : (s.setSlot k v).mem = s.mem := rfl
@[simp] theorem State.setSlot_sp (k : BitVec 4) (v : Word) : (s.setSlot k v).sp = s.sp := rfl
@[simp] theorem State.setSlot_runState (k : BitVec 4) (v : Word) : (s.setSlot k v).runState = s.runState := rfl
@[simp] theorem State.setSlot_faultCause (k : BitVec 4) (v : Word) : (s.setSlot k v).faultCause = s.faultCause := rfl
@[simp] theorem State.setSlot_faultInfo (k : BitVec 4) (v : Word) : (s.setSlot k v).faultInfo = s.faultInfo := rfl
@[simp] theorem State.setSlot_reg (k : BitVec 4) (v : Word) (j : RegIdx) : (s.setSlot k v).reg j = s.reg j := rfl

/-! ### setSp -/

@[simp] theorem State.setSp_regs (v : StackPtr) : (s.setSp v).regs = s.regs := rfl
@[simp] theorem State.setSp_pc (v : StackPtr) : (s.setSp v).pc = s.pc := rfl
@[simp] theorem State.setSp_mem (v : StackPtr) : (s.setSp v).mem = s.mem := rfl
@[simp] theorem State.setSp_stack (v : StackPtr) : (s.setSp v).stack = s.stack := rfl
@[simp] theorem State.setSp_sp (v : StackPtr) : (s.setSp v).sp = v := rfl
@[simp] theorem State.setSp_runState (v : StackPtr) : (s.setSp v).runState = s.runState := rfl
@[simp] theorem State.setSp_faultCause (v : StackPtr) : (s.setSp v).faultCause = s.faultCause := rfl
@[simp] theorem State.setSp_faultInfo (v : StackPtr) : (s.setSp v).faultInfo = s.faultInfo := rfl
@[simp] theorem State.setSp_reg (v : StackPtr) (j : RegIdx) : (s.setSp v).reg j = s.reg j := rfl
@[simp] theorem State.setSp_slot (v : StackPtr) (j : BitVec 4) : (s.setSp v).slot j = s.slot j := rfl

/-! ### setRunState -/

@[simp] theorem State.setRunState_regs (r : RunState) : (s.setRunState r).regs = s.regs := rfl
@[simp] theorem State.setRunState_pc (r : RunState) : (s.setRunState r).pc = s.pc := rfl
@[simp] theorem State.setRunState_mem (r : RunState) : (s.setRunState r).mem = s.mem := rfl
@[simp] theorem State.setRunState_stack (r : RunState) : (s.setRunState r).stack = s.stack := rfl
@[simp] theorem State.setRunState_sp (r : RunState) : (s.setRunState r).sp = s.sp := rfl
@[simp] theorem State.setRunState_runState (r : RunState) : (s.setRunState r).runState = r := rfl
@[simp] theorem State.setRunState_faultCause (r : RunState) : (s.setRunState r).faultCause = s.faultCause := rfl
@[simp] theorem State.setRunState_faultInfo (r : RunState) : (s.setRunState r).faultInfo = s.faultInfo := rfl
@[simp] theorem State.setRunState_reg (r : RunState) (j : RegIdx) : (s.setRunState r).reg j = s.reg j := rfl
@[simp] theorem State.setRunState_slot (r : RunState) (j : BitVec 4) : (s.setRunState r).slot j = s.slot j := rfl

/-! ### raise -/

@[simp] theorem raise_regs (c : FaultCause) (w : Word) : (raise c w s).regs = s.regs := rfl
@[simp] theorem raise_pc (c : FaultCause) (w : Word) : (raise c w s).pc = s.pc := rfl
@[simp] theorem raise_mem (c : FaultCause) (w : Word) : (raise c w s).mem = s.mem := rfl
@[simp] theorem raise_stack (c : FaultCause) (w : Word) : (raise c w s).stack = s.stack := rfl
@[simp] theorem raise_sp (c : FaultCause) (w : Word) : (raise c w s).sp = s.sp := rfl
@[simp] theorem raise_runState (c : FaultCause) (w : Word) : (raise c w s).runState = .faulted := rfl
@[simp] theorem raise_faultCause (c : FaultCause) (w : Word) : (raise c w s).faultCause = c := rfl
@[simp] theorem raise_faultInfo (c : FaultCause) (w : Word) : (raise c w s).faultInfo = w := rfl
@[simp] theorem raise_reg (c : FaultCause) (w : Word) (j : RegIdx) : (raise c w s).reg j = s.reg j := rfl
@[simp] theorem raise_slot (c : FaultCause) (w : Word) (j : BitVec 4) : (raise c w s).slot j = s.slot j := rfl

/-! ### advance -/

@[simp] theorem advance_regs : (advance s).regs = s.regs := rfl
@[simp] theorem advance_pc : (advance s).pc = s.pc + 2 := rfl
@[simp] theorem advance_mem : (advance s).mem = s.mem := rfl
@[simp] theorem advance_stack : (advance s).stack = s.stack := rfl
@[simp] theorem advance_sp : (advance s).sp = s.sp := rfl
@[simp] theorem advance_runState : (advance s).runState = s.runState := rfl
@[simp] theorem advance_faultCause : (advance s).faultCause = s.faultCause := rfl
@[simp] theorem advance_faultInfo : (advance s).faultInfo = s.faultInfo := rfl
@[simp] theorem advance_reg (j : RegIdx) : (advance s).reg j = s.reg j := rfl
@[simp] theorem advance_slot (j : BitVec 4) : (advance s).slot j = s.slot j := rfl

/-! ### The register file and the slots -/

/-- A register read after a register write. -/
@[simp] theorem State.setReg_reg (i j : RegIdx) (v : Byte) :
    (s.setReg i v).reg j = if j = i then v else s.reg j := by
  simp only [State.reg, State.setReg, Vector.getElem_set]
  by_cases h : j = i
  · simp [h]
  · rw [if_neg h, if_neg]
    intro e
    exact h (BitVec.eq_of_toNat_eq e.symm)

/-- A slot read after a slot write. -/
@[simp] theorem State.setSlot_slot (i j : BitVec 4) (v : Word) :
    (s.setSlot i v).slot j = if j = i then v else s.slot j := by
  simp only [State.slot, State.setSlot, Vector.getElem_set]
  by_cases h : j = i
  · simp [h]
  · rw [if_neg h, if_neg]
    intro e
    exact h (BitVec.eq_of_toNat_eq e.symm)

/-- Two register files that agree at every register are equal. -/
theorem State.regs_eq_of_reg {s t : State} (h : ∀ i, s.reg i = t.reg i) : s.regs = t.regs := by
  apply Vector.ext
  intro i hi
  have := h (BitVec.ofNat 4 i)
  simpa [State.reg, Nat.mod_eq_of_lt hi] using this

/-- Two stacks that agree at every slot are equal. -/
theorem State.stack_eq_of_slot {s t : State} (h : ∀ k, s.slot k = t.slot k) : s.stack = t.stack := by
  apply Vector.ext
  intro i hi
  have := h (BitVec.ofNat 4 i)
  simpa [State.slot, Nat.mod_eq_of_lt hi] using this

/-- Two states with equal fields are equal. -/
theorem State.eq_of_fields {s t : State} (regs : s.regs = t.regs) (pc : s.pc = t.pc) (mem : s.mem = t.mem)
    (stack : s.stack = t.stack) (sp : s.sp = t.sp) (run : s.runState = t.runState)
    (cause : s.faultCause = t.faultCause) (info : s.faultInfo = t.faultInfo) : s = t := by
  cases s
  cases t
  simp_all

/-- Every register after reset is 0. -/
@[simp] theorem State.reset_reg (i : RegIdx) : State.reset.reg i = 0 := by
  simp [State.reg, State.reset]

/-- Every stack slot after reset is 0. -/
@[simp] theorem State.reset_slot (k : BitVec 4) : State.reset.slot k = 0 := by
  simp [State.slot, State.reset]

end Sys2Proof.Machine
end

