-- ==== Sys2Proof/Laws/Step.lean ====
section
/-! SUPPORT. What each shared operation and each meaning can do, said once: fetch, push, pop, the four meanings, and the
step. Later proofs cite these and unfold nothing. -/

namespace Sys2Proof.Machine

/-! ### Fetch -/

/-- A fetch yields a word exactly when both bytes lie in memory, and then the word of those bytes. -/
theorem fetch_eq_some {s : State} {w : Word} :
    fetch s = some w ↔
      s.pc.toNat ≤ 0xFFE ∧ wordOfBytes (Memory.read s.mem s.pc.toNat) (Memory.read s.mem (s.pc.toNat + 1)) = w := by
  unfold fetch memReadWord Config.memSize
  by_cases h : s.pc.toNat + 1 < 4096
  · rw [if_pos h, Option.some_inj]
    exact ⟨fun e => ⟨by omega, e⟩, fun e => e.2⟩
  · rw [if_neg h]
    exact ⟨fun e => (nomatch e), fun e => absurd e.1 (by omega)⟩

/-- A fetch yields no word exactly when `pc` is 0xFFF or more. -/
theorem fetch_eq_none {s : State} : fetch s = none ↔ 0xFFF ≤ s.pc.toNat := by
  unfold fetch memReadWord Config.memSize
  split <;> simp <;> omega

/-! ### Decode -/

/-- A rejected word is rejected by its own name. -/
theorem decodeWord_unimplemented {w v : Word} (h : decodeWord w = .unimplemented v) : v = w := by
  unfold decodeWord at h
  simp only at h
  split at h
  · cases h
  · split at h
    · cases h
    · split at h
      · cases h
      · split at h
        · cases h
        · injection h with e
          exact e.symm

/-! ### The stack -/

theorem stackFull_iff {s : State} : stackFull s = true ↔ 16 ≤ s.sp.toNat := by
  simp [stackFull, Config.stackDepth]

theorem stackEmpty_iff {s : State} : stackEmpty s = true ↔ s.sp = 0 := by
  simp [stackEmpty]

theorem popDefined_iff {s : State} : popDefined s = true ↔ s.sp ≠ 0 ∧ s.sp.toNat ≤ 16 := by
  simp [popDefined, stackEmpty, Config.stackDepth]

/-- What a push does, where a slot is free: the slot at `sp` takes the value, `sp` grows by 1, all else stays. -/
theorem stackPush_spec (v : Word) {s : State} (h : s.sp.toNat ≤ 15) :
    (stackPush v s).sp.toNat = s.sp.toNat + 1 ∧
      (∀ k : BitVec 4, (stackPush v s).slot k = if k.toNat = s.sp.toNat then v else s.slot k) ∧
      (stackPush v s).regs = s.regs ∧ (stackPush v s).pc = s.pc ∧ (stackPush v s).mem = s.mem ∧
      (stackPush v s).runState = s.runState ∧ (stackPush v s).faultCause = s.faultCause ∧
      (stackPush v s).faultInfo = s.faultInfo := by
  refine ⟨?_, fun k => ?_, rfl, rfl, rfl, rfl, rfl, rfl⟩
  · simp only [stackPush, State.setSp_sp]
    bv_omega
  · have e : (k = s.sp.setWidth 4) ↔ k.toNat = s.sp.toNat := by
      constructor
      · intro e
        subst e
        simp
        omega
      · intro e
        apply BitVec.eq_of_toNat_eq
        simp
        omega
    simp only [stackPush, State.setSp_slot, State.setSlot_slot, e]

/-- The index a pop reads, where the stack is not empty. -/
theorem stackTop_index {s : State} (h1 : s.sp ≠ 0) (h2 : s.sp.toNat ≤ 16) :
    ((s.sp - 1).setWidth 4).toNat + 1 = s.sp.toNat := by
  have h0 : s.sp.toNat ≠ 0 := fun e => h1 (BitVec.eq_of_toNat_eq e)
  have : (s.sp - 1).toNat = s.sp.toNat - 1 := by bv_omega
  rw [BitVec.toNat_setWidth, this]
  omega

/-- What a pop does to the state, where the stack is not empty: `sp` falls by 1, all else stays. -/
theorem stackDrop_sp {s : State} (h1 : s.sp ≠ 0) : (stackDrop s).sp.toNat = s.sp.toNat - 1 := by
  have h0 : s.sp.toNat ≠ 0 := fun e => h1 (BitVec.eq_of_toNat_eq e)
  simp only [stackDrop, State.setSp_sp]
  bv_omega

/-! ### The meanings -/

/-- CALL answers one of two next states, and no other outcome. -/
theorem execCall_cases (nnn : Addr) (s : State) :
    (16 ≤ s.sp.toNat ∧ execCall nnn s = .next (raise .stackOverflow (encode (.call nnn)) s)) ∨
      (s.sp.toNat ≤ 15 ∧ execCall nnn s = .next ((stackPush s.pc s).setPc (callTarget nnn))) := by
  unfold execCall
  by_cases h : stackFull s = true
  · exact .inl ⟨stackFull_iff.1 h, if_pos h⟩
  · refine .inr ⟨?_, if_neg h⟩
    rw [stackFull_iff] at h
    omega

/-- RETURN answers one of two next states, and no other outcome. -/
theorem execReturn_cases (s : State) :
    ((s.sp = 0 ∨ 16 < s.sp.toNat) ∧ execReturn s = .next (raise .stackUnderflow (encode .ret) s)) ∨
      (s.sp ≠ 0 ∧ s.sp.toNat ≤ 16 ∧ execReturn s = .next ((stackDrop s).setPc (stackTop s))) := by
  unfold execReturn
  by_cases h : popDefined s = true
  · exact .inr ⟨(popDefined_iff.1 h).1, (popDefined_iff.1 h).2, if_pos h⟩
  · refine .inl ⟨?_, if_neg h⟩
    rw [popDefined_iff] at h
    by_cases h0 : s.sp = 0
    · exact .inl h0
    · exact .inr (Nat.lt_of_not_le fun le => h ⟨h0, le⟩)

/-- ADD answers one next state. -/
theorem execAdd_eq (x y : RegIdx) (s : State) :
    execAdd x y s =
      .next ((s.setReg x (addSum (s.reg x) (s.reg y))).setReg 15 (carryByte (addCarry (s.reg x) (s.reg y)))) := rfl

/-- HALT answers one next state. -/
theorem execHalt_eq (s : State) : execHalt s = .next (s.setRunState .halted) := rfl

/-! ### The step -/

/-- Every way a step answers a next state. -/
theorem step_next_cases {s t : State} (h : step s = .next t) :
    s.runState = .running ∧
      ((fetch s = none ∧ t = fetchFault s) ∨
        (∃ w i, fetch s = some w ∧ decodeWord w = .instr i ∧ exec i (advance s) = .next t) ∨
        (∃ w, fetch s = some w ∧ decodeWord w = .unimplemented w ∧ t = execUnimplemented w (advance s))) := by
  unfold step at h
  split at h
  · cases h
  · cases h
  · refine ⟨‹_›, ?_⟩
    split at h
    · injection h with e
      exact .inl ⟨‹_›, e.symm⟩
    · split at h
      · exact .inr (.inl ⟨_, _, ‹_›, ‹_›, h⟩)
      · rename_i w hf _ v hd
        injection h with e
        have hv := decodeWord_unimplemented hd
        subst hv
        exact .inr (.inr ⟨_, hf, hd, e.symm⟩)

/-! ### The run loop -/

@[simp] theorem runLoop_zero (s : State) : runLoop 0 s = s := rfl

/-- The loop goes on from the next state of a step. -/
theorem runLoop_next {s t : State} (h : step s = .next t) (n : Nat) : runLoop (n + 1) s = runLoop n t := by
  simp [runLoop, h]

/-- A state that has stopped running stays as it is. -/
theorem runLoop_stopped {s : State} (h : s.runState ≠ .running) (n : Nat) : runLoop n s = s := by
  cases n with
  | zero => rfl
  | succ n =>
    cases hr : s.runState with
    | running => exact absurd hr h
    | halted => simp [runLoop, step, hr]
    | faulted => simp [runLoop, step, hr]

end Sys2Proof.Machine
end

