-- ==== Sys2Proof/Laws/Words.lean ====
section
/-! SUPPORT. Words, bytes and encodings as numbers: what the concatenations and slices of Decode.lean come to. -/

namespace Sys2Proof

/-- A concatenation of bit vectors as a number. -/
theorem append_toNat {m n : Nat} (a : BitVec m) (b : BitVec n) : (a ++ b).toNat = a.toNat * 2 ^ n + b.toNat := by
  rw [BitVec.toNat_append, ← Nat.shiftLeft_add_eq_or_of_lt b.isLt, Nat.shiftLeft_eq]

theorem wordOfBytes_toNat (a b : Byte) : (wordOfBytes a b).toNat = a.toNat * 256 + b.toNat :=
  append_toNat a b

theorem highByte_toNat (w : Word) : (highByte w).toNat = w.toNat / 256 := by
  have h := w.isLt
  simp only [highByte, BitVec.extractLsb'_toNat, Nat.shiftRight_eq_div_pow]
  omega

theorem lowByte_toNat (w : Word) : (lowByte w).toNat = w.toNat % 256 := by
  simp [lowByte, BitVec.extractLsb'_toNat]

/-- The two bytes of a word form the word again. -/
@[simp] theorem wordOfBytes_high_low (w : Word) : wordOfBytes (highByte w) (lowByte w) = w := by
  apply BitVec.eq_of_toNat_eq
  rw [wordOfBytes_toNat, highByte_toNat, lowByte_toNat]
  omega

@[simp] theorem highByte_wordOfBytes (a b : Byte) : highByte (wordOfBytes a b) = a := by
  apply BitVec.eq_of_toNat_eq
  have h := b.isLt
  rw [highByte_toNat, wordOfBytes_toNat]
  omega

@[simp] theorem lowByte_wordOfBytes (a b : Byte) : lowByte (wordOfBytes a b) = b := by
  apply BitVec.eq_of_toNat_eq
  have h := b.isLt
  rw [lowByte_toNat, wordOfBytes_toNat]
  omega

/-- The word of CALL as a number. -/
theorem encode_call_toNat (nnn : Addr) : (encode (.call nnn)).toNat = 0x2000 + nnn.toNat :=
  append_toNat 0x2#4 nnn

/-- The word of ADD as a number. -/
theorem encode_add_toNat (x y : RegIdx) :
    (encode (.add x y)).toNat = 0x8004 + x.toNat * 2 ^ 8 + y.toNat * 2 ^ 4 := by
  show (((0x8#4 ++ x : BitVec 8) ++ y : BitVec 12) ++ 0x4#4 : BitVec 16).toNat = _
  have h1 := append_toNat (0x8#4 ++ x ++ y) 0x4#4
  have h2 := append_toNat (0x8#4 ++ x) y
  have h3 := append_toNat 0x8#4 x
  have e8 : (0x8#4).toNat = 8 := rfl
  have e4 : (0x4#4).toNat = 4 := rfl
  refine h1.trans ?_
  rw [h2, h3, e8, e4]
  omega

/-- Two words with the same number are the same word: a word is settled by its numeric fields. -/
theorem word_eq_of_toNat {v w : Word} (h : v.toNat = w.toNat) : v = w := BitVec.eq_of_toNat_eq h

end Sys2Proof
end

