-- ==== Sys2Proof/Tests/Slice0.lean ====
section
/-! SUPPORT. Tests: ill-formed instructions refused, words written out from the encodings, vectors of 95_test_vectors.md one
step each, and for every statement with hypotheses a state and operands that meet them. -/

namespace Sys2Proof.Tests

open Sys2Proof Sys2Proof.Machine

/-! ### Helpers -/

/-- The reset state with a `pc`, and listed bytes of memory. -/
def at_ (pc : Word) (mem : Memory) : State := { State.reset with pc := pc, mem := mem }

/-- The next state of an outcome, where there is one. -/
def nextOf : Host.Outcome State Fault Refusal → Option State
  | .next t => some t
  | .fault _ => none
  | .refused _ => none

/-- A field of the next state. -/
def view {α : Type} (f : State → α) (o : Host.Outcome State Fault Refusal) : Option α := (nextOf o).map f

/-! ### WellFormed: one ill-formed term for each check (R84), and the last well-formed one beside it -/

theorem test_wf_call_target_too_large : (Asm.call 0x1000).wf = false ∧ (Asm.call 0xFFF).wf = true := by decide

theorem test_wf_add_first_register_too_large : (Asm.add 16 0).wf = false ∧ (Asm.add 15 0).wf = true := by decide

theorem test_wf_add_second_register_too_large : (Asm.add 0 16).wf = false ∧ (Asm.add 0 15).wf = true := by decide

theorem test_wf_refused_term_has_no_instruction : (Asm.add 16 0).toInstr = none := by decide

theorem test_wf_every_instruction (i : Instr) : i.wf = true := by
  cases i with
  | halt => rfl
  | ret => rfl
  | call nnn =>
    have := nnn.isLt
    simp only [Instr.wf, Instr.toAsm, Asm.wf, decide_eq_true_eq]
    omega
  | add x y =>
    have := x.isLt
    have := y.isLt
    simp only [Instr.wf, Instr.toAsm, Asm.wf, Bool.and_eq_true, decide_eq_true_eq]
    omega

/-- R82: the canonical text, from its table. -/
theorem test_text : (Instr.add 0 15).text = "ADD R0, RF" ∧ (Instr.call 0xABC).text = "CALL 0xABC" := by decide

/-! ### Decode: words written out bit by bit from R75, the first byte the more significant (R71) -/

theorem test_decode_halt : decodeBytes [0b00000000, 0b00000000] = .instr .halt [] := by decide

theorem test_decode_return : decodeBytes [0b00000000, 0b11101110] = .instr .ret [] := by decide

theorem test_decode_call : decodeBytes [0b00101010, 0b10111100] = .instr (.call 0xABC) [] := by decide

theorem test_decode_add : decodeBytes [0b10000010, 0b00110100] = .instr (.add 2 3) [] := by decide

/-- V-DEC-6: CALL 0x0EE is not RETURN. -/
theorem test_decode_call_0ee : decodeWord 0x20EE = .instr (.call 0x0EE) := by decide

/-- V-DEC-11 to V-DEC-23, the neighbours of the four patterns. -/
theorem test_decode_unimplemented :
    [0x00E0#16, 0x00EF, 0x0EEE, 0x0001, 0x0100, 0x1100, 0x8010, 0x8015, 0x8013, 0x7014, 0x9014, 0x3000, 0xFFFF].all
      (fun w => decodeWord w == .unimplemented w) = true := by decide

theorem test_decode_truncated : decodeBytes [0x80] = .truncated ∧ decodeBytes [] = .truncated := by decide

/-- R84: the encoder's words. -/
theorem test_encode : encode .ret = 0x00EE ∧ encode (.call 0x100) = 0x2100 ∧ encode (.add 0 1) = 0x8014 := by decide

theorem test_table_words :
    decodeTableWord 16 0x0000 = some .halt ∧ decodeTableWord 16 0x00EE = some .ret ∧
    decodeTableWord 16 0x2000 = some (.call 0) ∧ decodeTableWord 16 0x8014 = some (.add 0 1) ∧
    decodeTableWord 16 0x8015 = none := by decide

/-- The word placed at the fetch address is the one the next step runs. -/
theorem test_withFetchWord :
    fetch (State.reset.withFetchWord 16 0x8014) = some 0x8014 ∧
    fetch ((at_ 0xFFF []).withFetchWord 16 0x2ABC) = some 0x2ABC := by decide

/-! ### Fetch -/

/-- V-FET-2, V-FET-4: an odd address, and the last address a fetch can start at. -/
theorem test_fetch_word :
    fetch (at_ 0x0001 [(0, 0x12), (1, 0x34), (2, 0x56), (3, 0x78)]) = some 0x3456 ∧
    fetch (at_ 0x0FFE [(0xFFE, 0xAB), (0xFFF, 0xCD)]) = some 0xABCD := by decide

/-- V-FET-5 to V-FET-7: no wrap. -/
theorem test_fetch_out_of_bounds :
    view (fun t => (t.faultCause, t.faultInfo, t.pc)) (step (at_ 0x0FFF [])) = some (.outOfBoundsFetch, 0x0FFF, 0x0FFF) ∧
    view (fun t => (t.faultCause, t.faultInfo, t.pc)) (step (at_ 0xFFFF [])) = some (.outOfBoundsFetch, 0xFFFF, 0xFFFF) := by
  decide

/-! ### The instructions, at most two vectors each -/

/-- V-HALT-3: at the top of memory. -/
theorem test_halt_top : view (fun t => (t.pc, t.runState)) (step (at_ 0xFFE [])) = some (0x1000, .halted) := by decide

/-- V-ADD-2. -/
theorem test_add_carries :
    view (fun t => (t.reg 2, t.reg 3, t.reg 15, t.pc))
      (step (((at_ 0 [(0, 0x82), (1, 0x34)]).setReg 2 200).setReg 3 100)) = some (44, 100, 1, 2) := by decide

/-- V-ADD-11: the flag wins over the sum. -/
theorem test_add_flag_wins :
    view (fun t => t.reg 15) (step (((at_ 0 [(0, 0x8F), (1, 0x14)]).setReg 15 200).setReg 1 100)) = some 1 := by decide

/-- V-CALL-7: the return address 0x1000 is pushed untruncated. -/
theorem test_call_at_top :
    view (fun t => (t.slot 0, t.sp, t.pc)) (step (at_ 0xFFE [(0xFFE, 0x28)])) = some (0x1000, 1, 0x0800) := by decide

/-- V-CALL-4: the 17th entry. -/
theorem test_call_overflow :
    view (fun t => (t.faultCause, t.faultInfo, t.pc, t.sp)) (step ((at_ 0x010 [(0x010, 0x22)]).setSp 16)) =
      some (.stackOverflow, 0x2200, 0x0012, 16) := by decide

/-- V-RET-3: the newest entry. -/
theorem test_return_pops :
    view (fun t => (t.sp, t.pc)) (step (((at_ 0x200 [(0x201, 0xEE)]).setSp 16).setSlot 15 0x0ABC)) =
      some (15, 0x0ABC) := by decide

/-- V-RET-2. -/
theorem test_return_underflow :
    view (fun t => (t.faultCause, t.faultInfo, t.pc, t.sp)) (step (at_ 0 [(1, 0xEE)])) =
      some (.stackUnderflow, 0x00EE, 0x0002, 0) := by decide

/-- V-UNI-1. -/
theorem test_unimplemented :
    view (fun t => (t.faultCause, t.faultInfo, t.pc)) (step (at_ 0 [(1, 0xE0)])) =
      some (.unimplementedOpcode, 0x00E0, 0x0002) := by decide

/-- V-ADD-1 through the units. -/
theorem test_units_add :
    (Units.unitStep (((at_ 0 [(0, 0x80), (1, 0x14)]).setReg 0 5).setReg 1 10)).map (fun t => (t.reg 0, t.reg 15, t.pc)) =
      some (15, 0, 2) := by decide

/-- A byte written 0 leaves no entry, so equal memories are equal data. -/
theorem test_write_zero_removes : Memory.write (Memory.write [] 7 0xAB) 7 0 = [] := by decide

/-! ### Witnesses: the hypotheses of the statements can be met, at the ends of their ranges -/

theorem witness_DecodeOfEncodeGivesInstruction : (Instr.call 0xFFF).wf = true ∧ (Instr.add 15 15).wf = true := by decide

theorem witness_EncodeOfDecodeGivesBytes : decodeBytes [0x2F, 0xFF, 7] = .instr (.call 0xFFF) [7] := by decide

theorem witness_WrittenFormGivesTableWord :
    (Asm.call 0x1000).wf = false ∧ (Asm.call 0xFFF).wf = true ∧ (Asm.add 16 15).wf = false ∧ (Asm.add 15 15).wf = true := by
  decide

theorem witness_ClassificationFollowsPatterns :
    decodeWord 0x0000 = .instr .halt ∧ decodeWord 0x00EE = .instr .ret ∧ decodeWord 0x2FFF = .instr (.call 0xFFF) ∧
    decodeWord 0x8FF4 = .instr (.add 15 15) ∧ decodeWord 0xFFFF = .unimplemented 0xFFFF := by decide

theorem witness_OpcodeMapAgreesWithDecoder : decodeWord 0x8FF4 = .instr (.add 15 15) := by decide

theorem witness_FetchReadsBigEndianWord : (at_ 0xFFE []).pc.toNat ≤ 0xFFE ∧ (at_ 0xFFD []).pc.toNat ≤ 0xFFE := by decide

theorem witness_FetchBeyondTopFaults :
    (at_ 0xFFF []).runState = .running ∧ 0xFFF ≤ (at_ 0xFFF []).pc.toNat ∧ (at_ 0xFFE []).pc.toNat ≤ 0xFFE := by decide

/-- Both clauses, at the top of memory. -/
theorem witness_StepRunsDecodedInstruction :
    (at_ 0xFFE [(0xFFE, 0x80), (0xFFF, 0x14)]).runState = .running ∧
    (at_ 0xFFE [(0xFFE, 0x80), (0xFFF, 0x14)]).pc.toNat ≤ 0xFFE ∧
    decodeBytes [Memory.read [(0xFFE, 0x80), (0xFFF, 0x14)] 0xFFE, Memory.read [(0xFFE, 0x80), (0xFFF, 0x14)] 0xFFF] =
      .instr (.add 0 1) [] ∧
    decodeBytes [Memory.read [(0xFFF, 0xE0)] 0xFFE, Memory.read [(0xFFF, 0xE0)] 0xFFF] = .unimplemented 0x00E0 [] := by
  decide

theorem witness_WordOutsideMapIsFatal :
    (at_ 0xFFE [(0xFFF, 0xEF)]).runState = .running ∧ (at_ 0xFFE [(0xFFF, 0xEF)]).pc.toNat ≤ 0xFFE ∧
    ∀ r ∈ opcodeTable, r.matchesWord (at_ 0xFFE [(0xFFF, 0xEF)]).wordAtPc = false := by decide

/-- Both sides, and RETURN at an illegal stack pointer, which has a successor. -/
theorem witness_RunningStateHasSuccessor :
    (∃ t, ((at_ 0 [(1, 0xEE)]).setSp 31).runState = .running ∧ step ((at_ 0 [(1, 0xEE)]).setSp 31) = .next t) ∧
    (State.reset.setRunState .halted).runState ≠ .running ∧ (State.reset.setRunState .faulted).runState ≠ .running :=
  ⟨⟨_, rfl, rfl⟩, by decide, by decide⟩

theorem witness_RunStateTransitions :
    (∃ t, (at_ 0 []).runState = .running ∧ step (at_ 0 []) = .next t ∧ t.runState = .halted) ∧
    (∃ t, (at_ 0xFFF []).runState = .running ∧ step (at_ 0xFFF []) = .next t ∧ t.runState = .faulted) ∧
    (∃ t, step (at_ 0 [(0, 0x20)]) = .next t ∧ t.runState = .running) :=
  ⟨⟨_, rfl, rfl, rfl⟩, ⟨_, rfl, rfl, rfl⟩, ⟨_, rfl, rfl⟩⟩

theorem witness_HaltStopsTheRun :
    (at_ 0xFFE []).runState = .running ∧ (at_ 0xFFE []).pc.toNat ≤ 0xFFE ∧ (at_ 0xFFE []).wordAtPc = 0x0000 := by decide

theorem witness_AddWritesSumThenCarry : ∃ t, exec (.add 15 15) State.reset = .next t := ⟨_, rfl⟩

theorem witness_AluComputesExactSum : (14 : RegIdx) ≠ 15 ∧ (0 : RegIdx) ≠ 15 := by decide

theorem witness_AddRegisterCoincidences : (0 : RegIdx) ≠ 15 ∧ (14 : RegIdx) ≠ 15 ∧ State.reset.reg 14 = 0 := by decide

theorem witness_AddCommutes :
    ∃ t u, exec (.add 0 1) State.reset = .next t ∧ exec (.add 1 0) State.reset = .next u ∧
      (0 : RegIdx) ≠ 15 ∧ (1 : RegIdx) ≠ 15 ∧ (2 : RegIdx) ≠ 0 ∧ (2 : RegIdx) ≠ 1 :=
  ⟨_, _, rfl, rfl, by decide, by decide, by decide, by decide⟩

theorem witness_CallPushesReturnAddress :
    (State.reset.setSp 15).sp.toNat ≤ 15 ∧ 16 ≤ (State.reset.setSp 16).sp.toNat := by decide

theorem witness_ReturnPopsNewestAddress :
    (1 ≤ (State.reset.setSp 1).sp.toNat ∧ (State.reset.setSp 1).sp.toNat ≤ 16 ∧
      (0 : BitVec 4).toNat + 1 = (State.reset.setSp 1).sp.toNat) ∧
    (1 ≤ (State.reset.setSp 16).sp.toNat ∧ (State.reset.setSp 16).sp.toNat ≤ 16 ∧
      (15 : BitVec 4).toNat + 1 = (State.reset.setSp 16).sp.toNat) := by decide

theorem witness_ReturnOnEmptyStackFaults : State.reset.sp = 0 := by decide

theorem witness_IllegalStackPointerFaults :
    17 ≤ (State.reset.setSp 17).sp.toNat ∧ 17 ≤ (State.reset.setSp 31).sp.toNat := by decide

theorem witness_PopAfterPushGivesValue :
    (State.reset.setSp 15).sp.toNat ≤ 15 ∧ (14 : BitVec 4).toNat < (State.reset.setSp 15).sp.toNat := by decide

/-- Each of the four instructions, and the two faulting forms. -/
theorem witness_InstructionFrames :
    (∃ t, exec .halt State.reset = .next t) ∧ (∃ t, exec .ret (State.reset.setSp 16) = .next t) ∧
    (∃ t, exec .ret State.reset = .next t) ∧ (∃ t, exec .ret (State.reset.setSp 17) = .next t) ∧ (∃ t, exec (.call 0xFFF) (State.reset.setSp 15) = .next t) ∧
    (∃ t, exec (.call 0) (State.reset.setSp 16) = .next t) ∧ (∃ t, exec (.add 0 1) State.reset = .next t) :=
  ⟨⟨_, rfl⟩, ⟨_, rfl⟩, ⟨_, rfl⟩, ⟨_, rfl⟩, ⟨_, rfl⟩, ⟨_, rfl⟩, ⟨_, rfl⟩⟩

theorem witness_CallThenReturnResumes :
    let s := (at_ 0 [(0, 0x2F), (1, 0xFE), (0xFFF, 0xEE)]).setSp 15
    s.runState = .running ∧ s.pc.toNat ≤ 0xFFE ∧ s.sp.toNat ≤ 15 ∧ s.wordAtPc = encode (.call 0xFFE) ∧
      (0xFFE : Addr).toNat ≤ 0xFFE ∧
      wordOfBytes (Memory.read s.mem (0xFFE : Addr).toNat) (Memory.read s.mem ((0xFFE : Addr).toNat + 1)) = encode .ret := by
  decide

theorem witness_NestedCallsSucceedToCapacity :
    State.reset.runState = .running ∧ State.reset.sp = 0 ∧ (List.replicate 16 (0 : Addr)).length ≤ 16 ∧
    (List.replicate 16 (0 : Addr)).length = 16 ∧ 17 ≤ (List.replicate 17 (0 : Addr)).length := by decide

theorem witness_LiveEntriesCountCallsLessReturns :
    ∃ t, execAll [.call 0x100, .add 0 1, .call 0x200, .ret] State.reset = some t ∧ t.sp = 1 := ⟨_, rfl, rfl⟩

theorem witness_StackPointerStaysLegal :
    (∃ t, ((at_ 0 [(0, 0x20)]).setSp 15).sp.toNat ≤ 16 ∧ step ((at_ 0 [(0, 0x20)]).setSp 15) = .next t ∧ t.sp = 16) ∧
    16 ≤ (State.reset.setSp 16).sp.toNat ∧ State.reset.sp = 0 :=
  ⟨⟨_, by decide, rfl, rfl⟩, by decide, rfl⟩

/-- Each of the four conditions at the edge of its range, and none. -/
theorem witness_FaultRecordNamesTheCondition :
    (∃ t, step (at_ 0xFFF []) = .next t ∧ fatalCondition (at_ 0xFFF []) = some .outOfBoundsFetch) ∧
    (∃ t, step (at_ 0 [(1, 0xEF)]) = .next t ∧ fatalCondition (at_ 0 [(1, 0xEF)]) = some .unimplementedOpcode) ∧
    (∃ t, step ((at_ 0 [(0, 0x20)]).setSp 16) = .next t ∧
      fatalCondition ((at_ 0 [(0, 0x20)]).setSp 16) = some .stackOverflow) ∧
    (∃ t, step ((at_ 0 [(1, 0xEE)]).setSp 17) = .next t ∧
      fatalCondition ((at_ 0 [(1, 0xEE)]).setSp 17) = some .stackUnderflow) ∧
    (∃ t, step (at_ 0 [(1, 0xEE)]) = .next t ∧ fatalCondition (at_ 0 [(1, 0xEE)]) = some .stackUnderflow) ∧
    (∃ t, step ((at_ 0 [(0, 0x20)]).setSp 15) = .next t ∧ fatalCondition ((at_ 0 [(0, 0x20)]).setSp 15) = none) :=
  ⟨⟨_, rfl, by decide⟩, ⟨_, rfl, by decide⟩, ⟨_, rfl, by decide⟩, ⟨_, rfl, by decide⟩, ⟨_, rfl, by decide⟩,
    ⟨_, rfl, by decide⟩⟩

theorem witness_FaultsArePrecise :
    (∃ t, step (at_ 0xFFF []) = .next t ∧ t.runState = .faulted) ∧
    (∃ t, step (at_ 0xFFE [(0xFFF, 0xEE)]) = .next t ∧ t.runState = .faulted) :=
  ⟨⟨_, rfl, rfl⟩, ⟨_, rfl, rfl⟩⟩

theorem witness_ResetZeroesData :
    (at_ 0xFFE []).mem = State.reset.mem ∧ (at_ 0xFFE []).pc.toNat ≤ 0xFFE := by decide

theorem witness_ResetRunsFromZeroWithNoFault :
    (State.reset.setRunState .halted).runState ≠ .running ∧ (State.reset.setRunState .faulted).runState ≠ .running := by
  decide

theorem witness_SeedingReachesExactlyLaunchStates :
    ((at_ 0xFFFF [(0xFFF, 1)]).setReg 15 255).IsLaunch ∧ Memory.wf ((at_ 0xFFFF [(0xFFF, 1)]).setReg 15 255).mem = true ∧
    launch [.mem 0xFFF 1, .pc 0xFFFF, .reg 15 255] = (at_ 0xFFFF [(0xFFF, 1)]).setReg 15 255 :=
  ⟨⟨by decide, rfl, rfl, rfl, rfl⟩, by decide, by decide⟩

theorem witness_StepKeepsInvariant :
    (∃ t, ((at_ 0 [(0, 0x20)]).setSp 16).Inv ∧ step ((at_ 0 [(0, 0x20)]).setSp 16) = .next t ∧ t.runState = .faulted) ∧
    (∃ t, (at_ 0 [(0, 0x80), (1, 0x14)]).Inv ∧ step (at_ 0 [(0, 0x80), (1, 0x14)]) = .next t ∧ t.runState = .running) :=
  ⟨⟨_, ⟨by decide, by decide, by decide, by decide⟩, rfl, rfl⟩, ⟨_, ⟨by decide, by decide, by decide, by decide⟩, rfl, rfl⟩⟩

theorem witness_PcNeverLeavesMemoryByMoreThanOne :
    (launch [.pc 0xFFF]).pc.toNat ≤ 0xFFF ∧
    ∃ t, (at_ 0xFFE [(0xFFE, 0x20)]).PcBounded ∧ step (at_ 0xFFE [(0xFFE, 0x20)]) = .next t ∧ t.slot 0 = 0x1000 :=
  ⟨by decide, _, ⟨by decide, by decide⟩, rfl, by decide⟩

theorem witness_OnlyAddTouchesRegisters :
    (∃ t, step (at_ 0 [(0, 0x20)]) = .next t ∧ ∀ x y, decodeWord (at_ 0 [(0, 0x20)]).wordAtPc ≠ .instr (.add x y)) ∧
    (∃ t v, exec (.add 0 1) State.reset = .next t ∧ exec (.add 0 1) (State.reset.setReg 5 9) = .next v ∧
      State.reset.reg 0 = (State.reset.setReg 5 9).reg 0 ∧ State.reset.reg 1 = (State.reset.setReg 5 9).reg 1) :=
  ⟨⟨_, rfl, by decide⟩, ⟨_, _, rfl, rfl, by decide, by decide⟩⟩

theorem witness_RegistersNeverSteerTheRun : SameButRegs State.reset (State.reset.setReg 3 7) :=
  ⟨rfl, rfl, rfl, rfl, rfl, rfl, rfl⟩

theorem witness_HaltIsTheOnlyNormalEnd :
    (∃ t, State.reset.runState = .running ∧ Completes State.reset t) ∧
    (runLoop 1 (at_ 0xFFF [])).runState ≠ .running ∧ (runLoop 1 (at_ 0xFFF [])).runState ≠ .halted :=
  ⟨⟨_, rfl, 1, rfl, rfl⟩, by decide, by decide⟩

theorem witness_UnitsMakeTheStep :
    ∃ t, (at_ 0 [(0, 0x2A)]).runState = .running ∧ Units.unitStep (at_ 0 [(0, 0x2A)]) = some t ∧ t.pc = 0xA00 :=
  ⟨_, rfl, rfl, by decide⟩

theorem witness_HostReadsStateOnlyAfterHalt :
    State.reset.runState = .running ∧ (State.reset.setRunState .halted).runState = .halted ∧
    (State.reset.setRunState .faulted).runState = .faulted := by decide

end Sys2Proof.Tests
end

section
/-! PROOFS. The family 10_state.md: the stack pointer stays legal (R31), and what reset leaves (R23, R32, R59). -/

namespace Sys2Proof.Machine

/-! ### The arms of execute (40_fetch_decode_step.md R97) -/

@[simp] theorem exec_halt (s : State) : exec .halt s = execHalt s := rfl

@[simp] theorem exec_ret (s : State) : exec .ret s = execReturn s := rfl

@[simp] theorem exec_call (nnn : Addr) (s : State) : exec (.call nnn) s = execCall nnn s := rfl

@[simp] theorem exec_add (x y : RegIdx) (s : State) : exec (.add x y) s = execAdd x y s := rfl

/-! ### The stack pointer -/

@[simp] theorem fetchFault_sp (s : State) : (fetchFault s).sp = s.sp := rfl

@[simp] theorem execUnimplemented_sp (w : Word) (s : State) : (execUnimplemented w s).sp = s.sp := rfl

/-- No write of the host reaches `sp` (70_reset_and_hazards.md R204). -/
@[simp] theorem hostWrite_sp (w : HostWrite) (s : State) : (hostWrite w s).sp = s.sp := by
  cases w <;> rfl

@[simp] theorem seed_sp (ws : List HostWrite) (s : State) : (seed ws s).sp = s.sp := by
  induction ws generalizing s with
  | nil => rfl
  | cons w ws ih => rw [seed, ih, hostWrite_sp]

/-- A CALL that finds no free slot faults and keeps `sp`. -/
theorem execCall_full (nnn : Addr) {s : State} (full : 16 ≤ s.sp.toNat) :
    execCall nnn s = .next (raise .stackOverflow (encode (.call nnn)) s) := by
  obtain ⟨-, fault⟩ | ⟨free, -⟩ := execCall_cases nnn s
  · exact fault
  · omega

/-- A RETURN that finds the stack empty faults and keeps `sp`. -/
theorem execReturn_empty {s : State} (empty : s.sp = 0) :
    execReturn s = .next (raise .stackUnderflow (encode .ret) s) := by
  obtain ⟨-, fault⟩ | ⟨nonempty, -, -⟩ := execReturn_cases s
  · exact fault
  · exact absurd empty nonempty

/-- No instruction moves a legal `sp` out of range: only CALL and RETURN move it, a CALL only from 15 or less. -/
theorem exec_sp_le {i : Instr} {s t : State} (legal : s.sp.toNat ≤ 16) (h : exec i s = .next t) :
    t.sp.toNat ≤ 16 := by
  cases i with
  | halt =>
    cases h
    exact legal
  | ret =>
    rw [exec_ret] at h
    obtain ⟨-, fault⟩ | ⟨nonempty, -, pop⟩ := execReturn_cases s
    · cases fault.symm.trans h
      exact legal
    · cases pop.symm.trans h
      rw [State.setPc_sp, stackDrop_sp nonempty]
      omega
  | call nnn =>
    rw [exec_call] at h
    obtain ⟨-, fault⟩ | ⟨free, push⟩ := execCall_cases nnn s
    · cases fault.symm.trans h
      exact legal
    · cases push.symm.trans h
      obtain ⟨sp, -⟩ := stackPush_spec s.pc free
      rw [State.setPc_sp, sp]
      omega
  | add x y =>
    cases h
    exact legal

/-- Every step keeps `sp` legal: a fatal fetch or word leaves it alone, and the advance before an instruction does too. -/
theorem step_sp_le {s t : State} (legal : s.sp.toNat ≤ 16) (h : step s = .next t) : t.sp.toNat ≤ 16 := by
  obtain ⟨-, ⟨-, rfl⟩ | ⟨w, i, -, -, run⟩ | ⟨w, -, -, rfl⟩⟩ := step_next_cases h
  · exact legal
  · exact exec_sp_le (s := advance s) legal run
  · exact legal

/-- Settles O29: reset and every launch state have `sp` 0, each step keeps it legal, and a CALL without a free slot and a
RETURN from an empty stack fault in place of moving it. -/
theorem stackPointerStaysLegal : Obligations.StackPointerStaysLegal := by
  unfold Obligations.StackPointerStaysLegal
  refine ⟨?reset, ?launch, fun s t => step_sp_le, ?overflow, ?underflow⟩
  case reset => decide
  case launch => exact fun ws => seed_sp ws State.reset
  case overflow => exact fun s nnn full => ⟨_, execCall_full nnn full, rfl, rfl, rfl⟩
  case underflow => exact fun s empty => ⟨_, execReturn_empty empty, rfl, rfl, rfl⟩

/-! ### The reset values -/

@[simp] theorem reset_mem_read (a : Nat) : Memory.read State.reset.mem a = 0 := Memory.read_nil a

/-- Two unseeded bytes are fetched as the word 0x0000 (20_memory.md R59). -/
theorem fetch_unseeded {s : State} (mem : s.mem = State.reset.mem) (pc : s.pc.toNat ≤ 0xFFE) :
    fetch s = some 0x0000 := by
  refine fetch_eq_some.2 ⟨pc, ?_⟩
  rw [mem, reset_mem_read, reset_mem_read]
  rfl

/-- Settles O33: every value is 0 after reset, and two bytes nobody seeded are fetched as the word of HALT. -/
theorem resetZeroesData : Obligations.ResetZeroesData := by
  unfold Obligations.ResetZeroesData
  refine ⟨State.reset_reg, reset_mem_read, State.reset_slot, rfl, fun s mem pc => ⟨fetch_unseeded mem pc, ?_⟩⟩
  decide

end Sys2Proof.Machine
end

section
/-! PROOFS. The family 30_encoding.md: a word that matches no row of the opcode map is fatal and named (R79). -/

namespace Sys2Proof

/-! ### A word and its fields (30_encoding.md R72) -/

/-- The first nibble and the twelve bits after it form the word again. -/
theorem fieldsOf_c_append_nnn (w : Word) : (fieldsOf w).c ++ (fieldsOf w).nnn = w :=
  (BitVec.extractLsb'_append_extractLsb'_eq_extractLsb' rfl).trans BitVec.extractLsb'_eq_self

/-- The four nibbles form the word again. -/
theorem fieldsOf_nibbles_append (w : Word) :
    (fieldsOf w).c ++ (fieldsOf w).x ++ (fieldsOf w).y ++ (fieldsOf w).d = w := by
  have cx : (fieldsOf w).c ++ (fieldsOf w).x = w.extractLsb' 8 8 :=
    BitVec.extractLsb'_append_extractLsb'_eq_extractLsb' rfl
  have cxy : w.extractLsb' 8 8 ++ (fieldsOf w).y = w.extractLsb' 4 12 :=
    BitVec.extractLsb'_append_extractLsb'_eq_extractLsb' rfl
  rw [cx, cxy]
  exact (BitVec.extractLsb'_append_extractLsb'_eq_extractLsb' rfl).trans BitVec.extractLsb'_eq_self

/-! ### Words of an instruction and words of none -/

/-- A word that decodes to an instruction is that instruction's encoding (R81). -/
theorem encode_of_decodeWord {w : Word} {i : Instr} (h : decodeWord w = .instr i) : encode i = w := by
  have nibbles := fieldsOf_nibbles_append w
  have topNibble := fieldsOf_c_append_nnn w
  simp only [decodeWord] at h
  split_ifs at h with halt ret call add
  · obtain ⟨c, x, y, d⟩ := halt
    rw [c, x, y, d] at nibbles
    cases h
    exact nibbles
  · obtain ⟨c, x, y, d⟩ := ret
    rw [c, x, y, d] at nibbles
    cases h
    exact nibbles
  · rw [call] at topNibble
    cases h
    exact topNibble
  · obtain ⟨c, d⟩ := add
    rw [c, d] at nibbles
    cases h
    exact nibbles

/-- Every instruction's word matches a row of the opcode map (R75). -/
theorem exists_row_matches_encode (i : Instr) : ∃ r ∈ opcodeTable, r.matchesWord (encode i) = true := by
  have row : Laws.RowMatch.Statement i := by
    cases i with
    | halt => exact Laws.RowMatch.halt
    | ret => exact Laws.RowMatch.ret
    | call nnn => exact Laws.RowMatch.call nnn
    | add x y => exact Laws.RowMatch.add x y
  obtain ⟨r, mem, -, hit⟩ := row
  exact ⟨r, mem, hit⟩

/-- A word that matches no row is unimplemented: an instruction's word would match its row. -/
theorem decodeWord_of_no_row {w : Word} (noRow : ∀ r ∈ opcodeTable, r.matchesWord w = false) :
    decodeWord w = .unimplemented w := by
  cases h : decodeWord w with
  | instr i =>
    obtain ⟨r, mem, hit⟩ := exists_row_matches_encode i
    rw [encode_of_decodeWord h, noRow r mem] at hit
    cases hit
  | unimplemented v => rw [Machine.decodeWord_unimplemented h]

end Sys2Proof

namespace Sys2Proof.Machine

/-- The step of a word with no defined semantics: the advance, then the fatal condition
(40_fetch_decode_step.md R93, R97). -/
theorem step_unimplemented {s : State} {w : Word} (run : s.runState = .running) (fetched : fetch s = some w)
    (outside : decodeWord w = .unimplemented w) : step s = .next (execUnimplemented w (advance s)) := by
  simp only [step, run, fetched, outside]

/-- Settles O11: a word of no row decodes to no instruction, so the step takes the fatal condition that records the word. -/
theorem wordOutsideMapIsFatal : Obligations.WordOutsideMapIsFatal := by
  unfold Obligations.WordOutsideMapIsFatal
  intro s run pc noRow
  have fetched : fetch s = some s.wordAtPc := fetch_eq_some.2 ⟨pc, rfl⟩
  have outside := decodeWord_of_no_row noRow
  exact ⟨outside, _, step_unimplemented run fetched outside, rfl, rfl, rfl⟩

end Sys2Proof.Machine
end

section
/-! PROOFS. The family 40_fetch_decode_step.md: the fields of a word (R94), its classification (R96), the word fetched (R90),
and the step of a fetched word (R93, R98). -/

namespace Sys2Proof

/-! ### The patterns of `Op(w)` (40_fetch_decode_step.md R96) -/

/-- The pattern of HALT. -/
def Fields.IsHalt (f : Fields) : Prop := f.c = 0x0 ∧ f.x = 0x0 ∧ f.y = 0x0 ∧ f.d = 0x0

/-- The pattern of RETURN. -/
def Fields.IsReturn (f : Fields) : Prop := f.c = 0x0 ∧ f.x = 0x0 ∧ f.y = 0xE ∧ f.d = 0xE

/-- The pattern of CALL. -/
def Fields.IsCall (f : Fields) : Prop := f.c = 0x2

/-- The pattern of ADD. -/
def Fields.IsAdd (f : Fields) : Prop := f.c = 0x8 ∧ f.d = 0x4

/-- The row of R96's table that classifies `w` as the given operation: its pattern, and the operands the fields give.
`decodeWord_eq_iff` ties it to the decoder. -/
def ClassifiedAs (w : Word) : Decoded → Prop
  | .instr .halt => (fieldsOf w).IsHalt
  | .instr .ret => (fieldsOf w).IsReturn
  | .instr (.call nnn) => (fieldsOf w).IsCall ∧ nnn = (fieldsOf w).nnn
  | .instr (.add x y) => (fieldsOf w).IsAdd ∧ x = (fieldsOf w).x ∧ y = (fieldsOf w).y
  | .unimplemented v =>
    (¬(fieldsOf w).IsHalt ∧ ¬(fieldsOf w).IsReturn ∧ ¬(fieldsOf w).IsCall ∧ ¬(fieldsOf w).IsAdd) ∧ v = w

/-! HALT and RETURN differ in `y`; any other two patterns differ in the opcode class `c`. -/

theorem Fields.IsHalt.not_isReturn {f : Fields} : f.IsHalt → ¬f.IsReturn :=
  fun ⟨_, _, y0, _⟩ ⟨_, _, yE, _⟩ => absurd (y0.symm.trans yE) (by decide)

theorem Fields.IsHalt.not_isCall {f : Fields} : f.IsHalt → ¬f.IsCall :=
  fun ⟨c0, _⟩ c2 => absurd (c0.symm.trans c2) (by decide)

theorem Fields.IsHalt.not_isAdd {f : Fields} : f.IsHalt → ¬f.IsAdd :=
  fun ⟨c0, _⟩ ⟨c8, _⟩ => absurd (c0.symm.trans c8) (by decide)

theorem Fields.IsReturn.not_isCall {f : Fields} : f.IsReturn → ¬f.IsCall :=
  fun ⟨c0, _⟩ c2 => absurd (c0.symm.trans c2) (by decide)

theorem Fields.IsReturn.not_isAdd {f : Fields} : f.IsReturn → ¬f.IsAdd :=
  fun ⟨c0, _⟩ ⟨c8, _⟩ => absurd (c0.symm.trans c8) (by decide)

theorem Fields.IsCall.not_isAdd {f : Fields} : f.IsCall → ¬f.IsAdd :=
  fun c2 ⟨c8, _⟩ => absurd (c2.symm.trans c8) (by decide)

/-- The pattern of HALT is one word. -/
theorem fieldsOf_isHalt_iff (w : Word) : (fieldsOf w).IsHalt ↔ w = 0x0000 := by
  constructor
  · rintro ⟨c, x, y, d⟩
    rw [← fieldsOf_nibbles_append w, c, x, y, d]
    rfl
  · rintro rfl
    exact ⟨rfl, rfl, rfl, rfl⟩

/-- The pattern of RETURN is one word. -/
theorem fieldsOf_isReturn_iff (w : Word) : (fieldsOf w).IsReturn ↔ w = 0x00EE := by
  constructor
  · rintro ⟨c, x, y, d⟩
    rw [← fieldsOf_nibbles_append w, c, x, y, d]
    rfl
  · rintro rfl
    exact ⟨rfl, rfl, rfl, rfl⟩

/-- The decoder's answer meets its own row of the table. -/
theorem classifiedAs_decodeWord (w : Word) : ClassifiedAs w (decodeWord w) := by
  simp only [decodeWord]
  split_ifs with halt ret call add
  · exact halt
  · exact ret
  · exact ⟨call, rfl⟩
  · exact ⟨add, rfl, rfl⟩
  · exact ⟨⟨halt, ret, call, add⟩, rfl⟩

/-- The decoder answers with every row that `w` meets: an earlier branch would need a pattern that excludes the row's. -/
theorem decodeWord_of_classifiedAs {w : Word} {op : Decoded} (row : ClassifiedAs w op) : decodeWord w = op := by
  match op, row with
  | .instr .halt, halt => exact if_pos halt
  | .instr .ret, ret => exact (if_neg fun halt => Fields.IsHalt.not_isReturn halt ret).trans (if_pos ret)
  | .instr (.call _), ⟨call, rfl⟩ =>
    exact (if_neg fun halt => Fields.IsHalt.not_isCall halt call).trans <|
      (if_neg fun ret => Fields.IsReturn.not_isCall ret call).trans (if_pos call)
  | .instr (.add _ _), ⟨add, rfl, rfl⟩ =>
    exact (if_neg fun halt => Fields.IsHalt.not_isAdd halt add).trans <|
      (if_neg fun ret => Fields.IsReturn.not_isAdd ret add).trans <|
        (if_neg fun call => Fields.IsCall.not_isAdd call add).trans (if_pos add)
  | .unimplemented _, ⟨⟨notHalt, notRet, notCall, notAdd⟩, rfl⟩ =>
    exact (if_neg notHalt).trans <| (if_neg notRet).trans <| (if_neg notCall).trans (if_neg notAdd)

/-- A word decodes to an operation exactly when it meets that operation's row of the table. -/
theorem decodeWord_eq_iff {w : Word} {op : Decoded} : decodeWord w = op ↔ ClassifiedAs w op :=
  ⟨fun h => h ▸ classifiedAs_decodeWord w, decodeWord_of_classifiedAs⟩

/-- Settles O5: each case is the decoder's equivalence at one operation; the words of HALT and RETURN follow from their four
nibbles, and the exclusions from the nibble in which two patterns differ. -/
theorem classificationFollowsPatterns : Obligations.ClassificationFollowsPatterns := by
  unfold Obligations.ClassificationFollowsPatterns
  intro w
  exact ⟨decodeWord_eq_iff, fieldsOf_isHalt_iff w, decodeWord_eq_iff, fieldsOf_isReturn_iff w,
    fun _ => decodeWord_eq_iff, fun _ _ => decodeWord_eq_iff, fun _ => decodeWord_eq_iff,
    fun halt => ⟨Fields.IsHalt.not_isReturn halt, Fields.IsHalt.not_isCall halt, Fields.IsHalt.not_isAdd halt⟩,
    fun ret => ⟨Fields.IsReturn.not_isCall ret, Fields.IsReturn.not_isAdd ret⟩, Fields.IsCall.not_isAdd⟩

/-! ### The fields as numbers (40_fetch_decode_step.md R94) -/

/-- A slice of a word as a number: the bits below it divided away, the bits above it dropped. -/
theorem extractLsb'_toNat_div (w : Word) (start len : Nat) :
    (w.extractLsb' start len).toNat = w.toNat / 2 ^ start % 2 ^ len := by
  rw [BitVec.extractLsb'_toNat, Nat.shiftRight_eq_div_pow]

/-- A slice from bit 0 as a number. -/
theorem extractLsb'_zero_toNat (w : Word) (len : Nat) : (w.extractLsb' 0 len).toNat = w.toNat % 2 ^ len := by
  rw [extractLsb'_toNat_div, Nat.pow_zero, Nat.div_one]

/-- The opcode class has no bits above it. -/
theorem fieldsOf_c_toNat (w : Word) : (fieldsOf w).c.toNat = w.toNat / 2 ^ 12 := by
  have top : w.toNat / 2 ^ 12 < 2 ^ 4 := Nat.div_lt_of_lt_mul w.isLt
  exact (extractLsb'_toNat_div w 12 4).trans (Nat.mod_eq_of_lt top)

/-- Settles O4: each field is a slice of the word. -/
theorem fieldsSplitTheWord : Obligations.FieldsSplitTheWord := by
  unfold Obligations.FieldsSplitTheWord
  refine ⟨fun w => ⟨fieldsOf_c_toNat w, ?x, ?y, ?d, ?nnn⟩, ?source⟩
  case x => exact extractLsb'_toNat_div w 8 4
  case y => exact extractLsb'_toNat_div w 4 4
  case d => exact extractLsb'_zero_toNat w 4
  case nnn => exact extractLsb'_zero_toNat w 12
  case source => decide

/-! ### The two bytes at an address -/

/-- Two bytes decode to an instruction exactly when their word does. -/
theorem decodeBytes_pair_eq_instr {b0 b1 : Byte} {i : Instr} :
    decodeBytes [b0, b1] = .instr i [] ↔ decodeWord (wordOfBytes b0 b1) = .instr i := by
  cases h : decodeWord (wordOfBytes b0 b1) <;> simp [decodeBytes, h]

/-- Two bytes decode to no instruction exactly when their word does. -/
theorem decodeBytes_pair_eq_unimplemented {b0 b1 : Byte} {w : Word} :
    decodeBytes [b0, b1] = .unimplemented w [] ↔ decodeWord (wordOfBytes b0 b1) = .unimplemented w := by
  cases h : decodeWord (wordOfBytes b0 b1) <;> simp [decodeBytes, h]

end Sys2Proof

namespace Sys2Proof.Machine

/-! ### Fetch and the step (40_fetch_decode_step.md R90, R93, R98) -/

/-- A fetch inside memory yields the word at `pc`. -/
theorem fetch_eq_wordAtPc {s : State} (pc : s.pc.toNat ≤ 0xFFE) : fetch s = some s.wordAtPc :=
  fetch_eq_some.2 ⟨pc, rfl⟩

/-- Settles O8: the fetch succeeds, and its word is the two bytes as one number. -/
theorem fetchReadsBigEndianWord : Obligations.FetchReadsBigEndianWord := by
  unfold Obligations.FetchReadsBigEndianWord
  exact fun s pc => ⟨s.wordAtPc, fetch_eq_wordAtPc pc, wordOfBytes_toNat _ _⟩

/-- After a fetch inside memory the advance does not wrap. -/
theorem pc_add_two_toNat {s : State} (pc : s.pc.toNat ≤ 0xFFE) : (s.pc + 2).toNat = s.pc.toNat + 2 := by
  bv_omega

/-- The step of a word that is an instruction: the advance, then the instruction. -/
theorem step_instr {s : State} {w : Word} {i : Instr} (run : s.runState = .running) (fetched : fetch s = some w)
    (decoded : decodeWord w = .instr i) : step s = exec i (advance s) := by
  simp only [step, run, fetched, decoded]

/-- Settles O10: the two bytes at `pc` are the word fetched, so the step is the one of the operation they decode to, on the
advanced state. -/
theorem stepRunsDecodedInstruction : Obligations.StepRunsDecodedInstruction := by
  unfold Obligations.StepRunsDecodedInstruction
  intro s run pc
  have fetched := fetch_eq_wordAtPc pc
  refine ⟨pc_add_two_toNat pc, fun i bytes => ?instr, fun w bytes => ?unimplemented⟩
  case instr => exact step_instr run fetched (decodeBytes_pair_eq_instr.1 bytes)
  case unimplemented =>
    have outside : decodeWord s.wordAtPc = .unimplemented w := decodeBytes_pair_eq_unimplemented.1 bytes
    obtain rfl := decodeWord_unimplemented outside
    exact step_unimplemented run fetched outside

end Sys2Proof.Machine
end

section
/-! PROOFS. The family 42_arithmetic_add.md: the alu's exact sum and its carry (R120, R121), and the flag that every ADD
rewrites (R122). -/

namespace Sys2Proof.Machine

/-! ### The alu as numbers (42_arithmetic_add.md R120, R121) -/

/-- Nine bits hold the sum of two bytes, so nothing wraps. -/
theorem exactSum_toNat (a b : Byte) : (exactSum a b).toNat = a.toNat + b.toNat := by
  unfold exactSum
  bv_omega

theorem addSum_toNat (a b : Byte) : (addSum a b).toNat = (a.toNat + b.toNat) % 256 := by
  rw [addSum, BitVec.extractLsb'_toNat, exactSum_toNat, Nat.shiftRight_zero]

/-- Bit 8 is the top bit of the exact sum, set from 256 on. -/
theorem addCarry_iff (a b : Byte) : addCarry a b = true ↔ 256 ≤ a.toNat + b.toNat := by
  have top : addCarry a b = (exactSum a b).msb := (BitVec.msb_eq_getLsbD_last _).symm
  rw [top, BitVec.msb_eq_decide, exactSum_toNat, decide_eq_true_iff]

/-- The flag's byte, by the size of the sum. -/
theorem carryByte_addCarry (a b : Byte) :
    carryByte (addCarry a b) = if 256 ≤ a.toNat + b.toNat then 1 else 0 := by
  simp only [carryByte, addCarry_iff]

/-- The carry and the sum's byte together are the sum: the carry is what the reduction modulo 256 takes off. -/
theorem addCarry_add_addSum (a b : Byte) :
    (if addCarry a b then 256 else 0) + (addSum a b).toNat = a.toNat + b.toNat := by
  have ha := a.isLt
  have hb := b.isLt
  simp only [addCarry_iff, addSum_toNat]
  split <;> omega

/-! ### What ADD writes (42_arithmetic_add.md R120 to R122) -/

/-- ADD answers a next state whose flag is given by the size of the sum, and whose target, when it is not the flag, is the
sum modulo 256. -/
theorem execAdd_writes (x y : RegIdx) (s : State) : ∃ t, execAdd x y s = .next t ∧
    (x ≠ 15 → (t.reg x).toNat = ((s.reg x).toNat + (s.reg y).toNat) % 256) ∧
    t.reg 15 = if 256 ≤ (s.reg x).toNat + (s.reg y).toNat then 1 else 0 := by
  refine ⟨_, execAdd_eq x y s, fun target => ?sum, ?flag⟩
  case sum => rw [State.setReg_reg, if_neg target, State.setReg_reg, if_pos rfl, addSum_toNat]
  case flag => rw [State.setReg_reg, if_pos rfl, carryByte_addCarry]

/-- A register's write is lost under a later write to the same register, whatever is written in between. -/
theorem State.setReg_setReg_setReg_same (s : State) (i j : RegIdx) (u v w : Byte) :
    ((s.setReg i u).setReg j v).setReg i w = (s.setReg j v).setReg i w := by
  refine State.eq_of_fields (State.regs_eq_of_reg fun r => ?_) rfl rfl rfl rfl rfl rfl rfl
  simp only [State.setReg_reg]
  split_ifs <;> rfl

/-- No carry-in: what register 15 held before is overwritten, and no operand reads it. -/
theorem execAdd_setReg_flag {x y : RegIdx} (hx : x ≠ 15) (hy : y ≠ 15) (s : State) (v : Byte) :
    execAdd x y (s.setReg 15 v) = execAdd x y s := by
  rw [execAdd_eq, execAdd_eq, State.setReg_reg, State.setReg_reg, if_neg hx, if_neg hy,
    State.setReg_setReg_setReg_same]

/-- Settles O16: the alu's answers are read off the exact sum, ADD writes them, and the old flag is lost. -/
theorem aluComputesExactSum : Obligations.AluComputesExactSum := by
  unfold Obligations.AluComputesExactSum
  refine ⟨fun a b => ⟨addSum_toNat a b, addCarry_iff a b, addCarry_add_addSum a b⟩, ?writes, ?noCarryIn⟩
  case writes =>
    intro x y s target
    obtain ⟨t, run, sum, flag⟩ := execAdd_writes x y s
    exact ⟨t, run, sum target, flag⟩
  case noCarryIn => exact fun x y s v hx hy => execAdd_setReg_flag hx hy s v

/-- Settles O17: the flag ADD writes is 1 or 0 by the size of the sum. -/
theorem carryIsRewrittenNotAccumulated : Obligations.CarryIsRewrittenNotAccumulated := by
  unfold Obligations.CarryIsRewrittenNotAccumulated
  intro x y s
  obtain ⟨t, run, -, flag⟩ := execAdd_writes x y s
  refine ⟨t, run, ?_⟩
  rw [flag]
  split_ifs with carries
  · exact ⟨.inr rfl, iff_of_true rfl carries⟩
  · exact ⟨.inl rfl, iff_of_false (by decide) carries⟩

end Sys2Proof.Machine
end

section
/-! PROOFS. The family of the remaining statements, first the encoding (30_encoding.md): decoding and encoding are inverse
(R81, R84), the written form (R82), and the match and mask columns (R75, R76). -/

namespace Sys2Proof

/-! ### Concatenations of words and the fields they give back -/

/-- A concatenation is settled by its two parts. -/
theorem append_eq_append_iff {m n : Nat} {a a' : BitVec m} {b b' : BitVec n} :
    a ++ b = a' ++ b' ↔ a = a' ∧ b = b' := by
  constructor
  · intro eq
    exact ⟨by simpa only [BitVec.extractLsb'_append_eq_left] using congrArg (BitVec.extractLsb' n m) eq,
      by simpa only [BitVec.extractLsb'_append_eq_right] using congrArg (BitVec.extractLsb' 0 n) eq⟩
  · rintro ⟨rfl, rfl⟩
    rfl

theorem fieldsOf_of_nibbles {w : Word} {c x y d : Nibble} (eq : w = c ++ x ++ y ++ d) :
    (fieldsOf w).c = c ∧ (fieldsOf w).x = x ∧ (fieldsOf w).y = y ∧ (fieldsOf w).d = d := by
  have nibbles := (fieldsOf_nibbles_append w).trans eq
  simpa only [append_eq_append_iff, and_assoc] using nibbles

theorem fieldsOf_of_c_nnn {w : Word} {c : Nibble} {nnn : Addr} (eq : w = c ++ nnn) :
    (fieldsOf w).c = c ∧ (fieldsOf w).nnn = nnn :=
  append_eq_append_iff.1 ((fieldsOf_c_append_nnn w).trans eq)

/-! ### Decoding and encoding are inverse (30_encoding.md R81, R84) -/

/-- Every instruction's word decodes to it: the word's fields are the pattern and operands it was made of. -/
@[simp] theorem decodeWord_encode (i : Instr) : decodeWord (encode i) = .instr i := by
  apply decodeWord_of_classifiedAs
  cases i with
  | halt => exact (fieldsOf_isHalt_iff _).2 rfl
  | ret => exact (fieldsOf_isReturn_iff _).2 rfl
  | call nnn =>
    obtain ⟨c, operand⟩ := fieldsOf_of_c_nnn (w := encode (.call nnn)) rfl
    exact ⟨c, operand.symm⟩
  | add x y =>
    obtain ⟨c, target, source, d⟩ := fieldsOf_of_nibbles (w := encode (.add x y)) rfl
    exact ⟨⟨c, d⟩, target.symm, source.symm⟩

/-- The bytes of an instruction decode to it, whatever follows them. -/
theorem decodeBytes_encodeBytes_append (i : Instr) (rest : List Byte) :
    decodeBytes (encodeBytes i ++ rest) = .instr i rest := by
  simp [encodeBytes, decodeBytes]

/-- Settles O1: the two bytes form the instruction's word again, and the decoder reads its operands off the fields. Every
instruction is well-formed, so the hypothesis is not needed. -/
theorem decodeOfEncodeGivesInstruction : Obligations.DecodeOfEncodeGivesInstruction := by
  unfold Obligations.DecodeOfEncodeGivesInstruction
  exact fun i rest _ => decodeBytes_encodeBytes_append i rest

/-- Settles O2: the first two bytes form a word that decodes to the instruction, so they are the bytes of its encoding; with
fewer than two bytes nothing is decoded. -/
theorem encodeOfDecodeGivesBytes : Obligations.EncodeOfDecodeGivesBytes := by
  unfold Obligations.EncodeOfDecodeGivesBytes
  intro bytes rest i decoded
  match bytes with
  | [] => cases decoded
  | [_] => cases decoded
  | b0 :: b1 :: tail =>
    cases word : decodeWord (wordOfBytes b0 b1) with
    | unimplemented w => simp [decodeBytes, word] at decoded
    | instr j =>
      obtain ⟨rfl, rfl⟩ : j = i ∧ tail = rest := by simpa [decodeBytes, word] using decoded
      simp [encodeBytes, encode_of_decodeWord word]

/-- Settles O7: each of the eight words is decoded. -/
theorem sampleWordsDecode : Obligations.SampleWordsDecode := by
  unfold Obligations.SampleWordsDecode
  decide

/-! ### The written form (30_encoding.md R82) -/

/-- A written form out of range stands for no instruction. -/
theorem Asm.toInstr_of_not_wf {a : Asm} (outOfRange : a.wf = false) : a.toInstr = none := by
  simp [Asm.toInstr, outOfRange]

/-- A written form in range stands for an instruction, whose written form it is. -/
theorem Asm.toInstr_of_wf {a : Asm} (inRange : a.wf = true) : ∃ i, a.toInstr = some i ∧ i.toAsm = a := by
  cases a with
  | halt => exact ⟨.halt, rfl, rfl⟩
  | ret => exact ⟨.ret, rfl, rfl⟩
  | call nnn =>
    have bound : nnn ≤ 0xFFF := by simpa [Asm.wf] using inRange
    refine ⟨.call (BitVec.ofNat 12 nnn), if_pos inRange, ?_⟩
    rw [Instr.toAsm, BitVec.toNat_ofNat, Nat.mod_eq_of_lt (by omega)]
  | add x y =>
    obtain ⟨boundX, boundY⟩ : x ≤ 15 ∧ y ≤ 15 := by simpa [Asm.wf] using inRange
    refine ⟨.add (BitVec.ofNat 4 x) (BitVec.ofNat 4 y), if_pos inRange, ?_⟩
    rw [Instr.toAsm, BitVec.toNat_ofNat, BitVec.toNat_ofNat, Nat.mod_eq_of_lt (by omega), Nat.mod_eq_of_lt (by omega)]

/-- Settles O3: a form out of range is refused; one in range is the written form of its instruction, so the number of that
instruction's word is the table's. -/
theorem writtenFormGivesTableWord : Obligations.WrittenFormGivesTableWord := by
  unfold Obligations.WrittenFormGivesTableWord
  refine fun a => ⟨Asm.toInstr_of_not_wf, fun inRange => ?_⟩
  obtain ⟨i, standsFor, rfl⟩ := Asm.toInstr_of_wf inRange
  refine ⟨i, standsFor, rfl, ?_⟩
  cases i with
  | halt => rfl
  | ret => rfl
  | call nnn => exact encode_call_toNat nnn
  | add x y => exact encode_add_toNat x y

/-! ### The match and mask columns (30_encoding.md R75, R76) -/

/-! The mask of HALT and RETURN keeps the whole word. -/

theorem and_mask_halt_iff (w : Word) : w &&& 0xFFFF = 0x0000 ↔ (fieldsOf w).IsHalt :=
  (Eq.congr_left BitVec.and_allOnes).trans (fieldsOf_isHalt_iff w).symm

theorem and_mask_return_iff (w : Word) : w &&& 0xFFFF = 0x00EE ↔ (fieldsOf w).IsReturn :=
  (Eq.congr_left BitVec.and_allOnes).trans (fieldsOf_isReturn_iff w).symm

/-- The mask and pattern of CALL test the opcode class alone. -/
theorem and_mask_call_iff (w : Word) : w &&& 0xF000 = 0x2000 ↔ (fieldsOf w).IsCall := by
  have masked : w &&& 0xF000#16 = (fieldsOf w).c ++ 0#12 := by
    conv_lhs => rw [← fieldsOf_c_append_nnn w]
    exact Laws.RowMatch.append_and_top _ _
  have pattern : (0x2000#16 : Word) = 0x2#4 ++ 0#12 := rfl
  exact (Eq.congr masked pattern).trans (BitVec.append_left_inj _)

/-- The mask and pattern of ADD test the first and the last nibble. -/
theorem and_mask_add_iff (w : Word) : w &&& 0xF00F = 0x8004 ↔ (fieldsOf w).IsAdd := by
  have masked (c x y d : Nibble) : (c ++ x ++ y ++ d) &&& (BitVec.allOnes 4 ++ 0#4 ++ 0#4 ++ BitVec.allOnes 4) =
      c ++ 0#4 ++ 0#4 ++ d := by
    simp only [BitVec.and_append, BitVec.and_allOnes, BitVec.and_zero]
  have pattern (c d : Nibble) : c ++ 0#4 ++ 0#4 ++ d = 0x8#4 ++ 0#4 ++ 0#4 ++ 0x4#4 ↔ c = 0x8 ∧ d = 0x4 := by
    simp only [append_eq_append_iff, and_true]
    rfl
  conv_lhs => rw [← fieldsOf_nibbles_append w]
  exact (Eq.congr (masked _ _ _ _) rfl).trans (pattern _ _)

/-- The rows of the opcode map that a word matches, by the patterns of its fields. -/
theorem opcodeTable_filter_matchesWord (w : Word) [Decidable (fieldsOf w).IsHalt] [Decidable (fieldsOf w).IsReturn]
    [Decidable (fieldsOf w).IsCall] [Decidable (fieldsOf w).IsAdd] :
    ((opcodeTable.filter fun r => r.matchesWord w).map OpcodeRow.mnemonic) =
      (if (fieldsOf w).IsHalt then ["HALT"] else []) ++ (if (fieldsOf w).IsReturn then ["RETURN"] else []) ++
        (if (fieldsOf w).IsCall then ["CALL"] else []) ++ (if (fieldsOf w).IsAdd then ["ADD"] else []) := by
  simp only [opcodeTable, List.filter_cons, List.filter_nil, OpcodeRow.matchesWord, beq_iff_eq, and_mask_halt_iff,
    and_mask_return_iff, and_mask_call_iff, and_mask_add_iff]
  split_ifs <;> rfl

/-- Settles O6: the rows a word matches are read off its patterns, and the decoder's answer meets one pattern and excludes the
others, or excludes all four. -/
theorem opcodeMapAgreesWithDecoder : Obligations.OpcodeMapAgreesWithDecoder := by
  unfold Obligations.OpcodeMapAgreesWithDecoder
  classical
  intro w
  have rows := opcodeTable_filter_matchesWord w
  have classified := classifiedAs_decodeWord w
  refine ⟨fun i decoded => ?instr, ?unimplemented⟩
  case instr =>
    rw [decoded] at classified
    rw [rows]
    match i, classified with
    | .halt, (halt : (fieldsOf w).IsHalt) =>
      rw [if_pos halt, if_neg (Fields.IsHalt.not_isReturn halt), if_neg (Fields.IsHalt.not_isCall halt),
        if_neg (Fields.IsHalt.not_isAdd halt)]
      rfl
    | .ret, (ret : (fieldsOf w).IsReturn) =>
      rw [if_neg fun halt => Fields.IsHalt.not_isReturn halt ret, if_pos ret, if_neg (Fields.IsReturn.not_isCall ret),
        if_neg (Fields.IsReturn.not_isAdd ret)]
      rfl
    | .call _, ⟨call, _⟩ =>
      rw [if_neg fun halt => Fields.IsHalt.not_isCall halt call, if_neg fun ret => Fields.IsReturn.not_isCall ret call,
        if_pos call, if_neg (Fields.IsCall.not_isAdd call)]
      rfl
    | .add _ _, ⟨add, _⟩ =>
      rw [if_neg fun halt => Fields.IsHalt.not_isAdd halt add, if_neg fun ret => Fields.IsReturn.not_isAdd ret add,
        if_neg fun call => Fields.IsCall.not_isAdd call add, if_pos add]
      rfl
  case unimplemented =>
    rw [decodeWord_eq_iff, ← List.map_eq_nil_iff (f := OpcodeRow.mnemonic), rows]
    simp [ClassifiedAs]

end Sys2Proof
end

section
/-! PROOFS. What execute and the step answer, as total functions of the state with the fatal condition split off; the
families of the four instructions are settled from it. -/

namespace Sys2Proof.Machine

/-! ### Execute: the fatal condition met, or else the effect -/

/-- The fatal condition that executing an instruction meets, if any (60_exceptions.md R173, R174; RETURN with `sp` above 16 is
log 3). `exec_of_cause` and `exec_of_no_cause` tie it to `exec`. -/
def execCause : Instr → State → Option FaultCause
  | .halt, _ => none
  | .ret, s => if s.sp = 0 ∨ 16 < s.sp.toNat then some .stackUnderflow else none
  | .call _, s => if 16 ≤ s.sp.toNat then some .stackOverflow else none
  | .add _ _, _ => none

/-- The state an instruction leaves when it meets no fatal condition (40_fetch_decode_step.md R97). `exec_of_no_cause` ties it
to `exec`. -/
def effect : Instr → State → State
  | .halt, s => s.setRunState .halted
  | .ret, s => (stackDrop s).setPc (stackTop s)
  | .call nnn, s => (stackPush s.pc s).setPc (callTarget nnn)
  | .add x y, s => (s.setReg x (addSum (s.reg x) (s.reg y))).setReg 15 (carryByte (addCarry (s.reg x) (s.reg y)))

/-- The next state execute answers. -/
def execNext (i : Instr) (s : State) : State :=
  match execCause i s with
  | some c => raise c (encode i) s
  | none => effect i s

@[simp] theorem execCause_add (x y : RegIdx) (s : State) : execCause (.add x y) s = none := rfl

@[simp] theorem execCause_ret_eq_none {s : State} : execCause .ret s = none ↔ s.sp ≠ 0 ∧ s.sp.toNat ≤ 16 := by
  simp [execCause]

@[simp] theorem execCause_call_eq_none {nnn : Addr} {s : State} : execCause (.call nnn) s = none ↔ s.sp.toNat ≤ 15 := by
  simp [execCause]
  omega

theorem execCause_ret_of_undefined {s : State} (undefined : s.sp = 0 ∨ 16 < s.sp.toNat) :
    execCause .ret s = some .stackUnderflow := if_pos undefined

theorem execCause_call_of_full {s : State} (full : 16 ≤ s.sp.toNat) (nnn : Addr) :
    execCause (.call nnn) s = some .stackOverflow := if_pos full

/-- The advance does not move `sp`, which alone decides the condition. -/
@[simp] theorem execCause_advance (i : Instr) (s : State) : execCause i (advance s) = execCause i s := by
  cases i <;> rfl

theorem execNext_of_cause {i : Instr} {s : State} {c : FaultCause} (cause : execCause i s = some c) :
    execNext i s = raise c (encode i) s := by
  simp only [execNext, cause]

theorem execNext_of_no_cause {i : Instr} {s : State} (noCause : execCause i s = none) :
    execNext i s = effect i s := by
  simp only [execNext, noCause]

/-- Execute is total: it raises the condition the instruction meets, or else leaves the instruction's effect. -/
theorem exec_eq (i : Instr) (s : State) : exec i s = .next (execNext i s) := by
  cases i with
  | halt => rfl
  | ret =>
    obtain ⟨undefined, run⟩ | ⟨nonempty, legal, run⟩ := execReturn_cases s
    · rw [exec_ret, run, execNext_of_cause (execCause_ret_of_undefined undefined)]
    · rw [exec_ret, run, execNext_of_no_cause (execCause_ret_eq_none.2 ⟨nonempty, legal⟩)]
      rfl
  | call nnn =>
    obtain ⟨full, run⟩ | ⟨free, run⟩ := execCall_cases nnn s
    · rw [exec_call, run, execNext_of_cause (execCause_call_of_full full nnn)]
    · rw [exec_call, run, execNext_of_no_cause (execCause_call_eq_none.2 free)]
      rfl
  | add x y => rfl

theorem exec_of_cause {i : Instr} {s : State} {c : FaultCause} (cause : execCause i s = some c) :
    exec i s = .next (raise c (encode i) s) := by
  rw [exec_eq, execNext_of_cause cause]

theorem exec_of_no_cause {i : Instr} {s : State} (noCause : execCause i s = none) :
    exec i s = .next (effect i s) := by
  rw [exec_eq, execNext_of_no_cause noCause]

/-- The two ways execute answers a next state. -/
theorem exec_next_cases {i : Instr} {s t : State} (h : exec i s = .next t) :
    (∃ c, execCause i s = some c ∧ t = raise c (encode i) s) ∨ (execCause i s = none ∧ t = effect i s) := by
  rw [exec_eq] at h
  injection h with next
  subst next
  cases cause : execCause i s with
  | some c => exact .inl ⟨c, rfl, execNext_of_cause cause⟩
  | none => exact .inr ⟨rfl, execNext_of_no_cause cause⟩

/-! ### The effect, field by field -/

@[simp] theorem effect_mem (i : Instr) (s : State) : (effect i s).mem = s.mem := by
  cases i <;> rfl

@[simp] theorem effect_faultCause (i : Instr) (s : State) : (effect i s).faultCause = s.faultCause := by
  cases i <;> rfl

@[simp] theorem effect_faultInfo (i : Instr) (s : State) : (effect i s).faultInfo = s.faultInfo := by
  cases i <;> rfl

/-- HALT alone writes `run_state` (10_state.md R34). -/
@[simp] theorem effect_runState (i : Instr) (s : State) :
    (effect i s).runState = if i = .halt then .halted else s.runState := by
  cases i <;> rfl

/-- ADD alone writes the register file (10_state.md R21). -/
theorem effect_regs {i : Instr} (notAdd : ∀ x y, i ≠ .add x y) (s : State) : (effect i s).regs = s.regs := by
  cases i with
  | halt => rfl
  | ret => rfl
  | call nnn => rfl
  | add x y => exact absurd rfl (notAdd x y)

/-- What ADD leaves in each register (42_arithmetic_add.md R120, R123). -/
theorem effect_add_reg (x y : RegIdx) (s : State) (r : RegIdx) :
    (effect (.add x y) s).reg r =
      if r = 15 then carryByte (addCarry (s.reg x) (s.reg y))
      else if r = x then addSum (s.reg x) (s.reg y) else s.reg r := by
  simp only [effect, State.setReg_reg]

/-- What CALL leaves in `sp`, where a slot is free. -/
theorem effect_call_sp {s : State} (free : s.sp.toNat ≤ 15) (nnn : Addr) :
    (effect (.call nnn) s).sp.toNat = s.sp.toNat + 1 := by
  obtain ⟨sp, -⟩ := stackPush_spec s.pc free
  exact sp

/-- What CALL leaves in each slot, where one is free. -/
theorem effect_call_slot {s : State} (free : s.sp.toNat ≤ 15) (nnn : Addr) (k : BitVec 4) :
    (effect (.call nnn) s).slot k = if k.toNat = s.sp.toNat then s.pc else s.slot k := by
  obtain ⟨-, slots, -⟩ := stackPush_spec s.pc free
  exact slots k

@[simp] theorem effect_call_pc (nnn : Addr) (s : State) : (effect (.call nnn) s).pc.toNat = nnn.toNat := by
  show (callTarget nnn).toNat = nnn.toNat
  rw [callTarget, BitVec.toNat_setWidth, Nat.mod_eq_of_lt (by omega)]

/-- What RETURN leaves in `sp`, where the stack is not empty. -/
theorem effect_ret_sp {s : State} (nonempty : s.sp ≠ 0) : (effect .ret s).sp.toNat = s.sp.toNat - 1 :=
  stackDrop_sp nonempty

/-- RETURN takes its target from the newest slot. -/
theorem effect_ret_pc {s : State} {k : BitVec 4} (newest : k.toNat + 1 = s.sp.toNat) : (effect .ret s).pc = s.slot k := by
  have legal : s.sp.toNat ≤ 16 := by omega
  have nonempty : s.sp ≠ 0 := fun empty => by simp [empty] at newest
  have index := stackTop_index nonempty legal
  show s.slot _ = s.slot k
  rw [BitVec.eq_of_toNat_eq (x := (s.sp - 1).setWidth 4) (y := k) (by omega)]

end Sys2Proof.Machine
end

section
/-! PROOFS. The four instructions (42_arithmetic_add.md R120 to R125, 43_control_transfer.md R130 to R133, 41_system_halt.md
R110): what each writes, when it faults, and what it leaves. -/

namespace Sys2Proof.Machine

/-! ### ADD (42_arithmetic_add.md) -/

/-- Settles O15: ADD meets no fatal condition, and its effect writes the register file only. -/
theorem addWritesSumThenCarry : Obligations.AddWritesSumThenCarry := by
  unfold Obligations.AddWritesSumThenCarry
  intro x y s sum
  refine ⟨_, exec_of_no_cause (execCause_add x y s), fun r => ?_, rfl, rfl, rfl, rfl, rfl, rfl, rfl⟩
  rw [effect_add_reg, carryByte_addCarry]
  split_ifs with flag carries target
  · rfl
  · rfl
  · exact addSum_toNat _ _
  · rfl

/-- A write to a register is lost under a write to it that follows (R123). -/
theorem State.setReg_setReg_same (s : State) (i : RegIdx) (u v : Byte) : (s.setReg i u).setReg i v = s.setReg i v := by
  refine State.eq_of_fields (State.regs_eq_of_reg fun r => ?_) rfl rfl rfl rfl rfl rfl rfl
  simp only [State.setReg_reg]
  split_ifs <;> rfl

/-- Writing what a register holds changes nothing. -/
theorem State.setReg_reg_self (s : State) (i : RegIdx) : s.setReg i (s.reg i) = s := by
  refine State.eq_of_fields (State.regs_eq_of_reg fun r => ?_) rfl rfl rfl rfl rfl rfl rfl
  rw [State.setReg_reg]
  split_ifs with same
  · rw [same]
  · rfl

/-- ADD with the flag as its target leaves the carry alone (decision D4). -/
theorem execAdd_flag (y : RegIdx) (s : State) :
    execAdd 15 y s = .next (s.setReg 15 (if 256 ≤ (s.reg 15).toNat + (s.reg y).toNat then 1 else 0)) := by
  rw [execAdd_eq, State.setReg_setReg_same, carryByte_addCarry]

/-- Adding a register that holds 0 clears the flag and changes nothing else. -/
theorem execAdd_zero {x y : RegIdx} {s : State} (zero : s.reg y = 0) : execAdd x y s = .next (s.setReg 15 0) := by
  have sum : addSum (s.reg x) 0 = s.reg x := by
    apply BitVec.eq_of_toNat_eq
    rw [addSum_toNat]
    exact Nat.mod_eq_of_lt (s.reg x).isLt
  have noCarry : ¬256 ≤ (s.reg x).toNat + (0 : Byte).toNat := Nat.not_le.2 (s.reg x).isLt
  rw [execAdd_eq, zero, sum, State.setReg_reg_self, carryByte_addCarry, if_neg noCarry]

/-- Doubling carries from 128 on. -/
theorem double_carries_iff (a : Byte) : 256 ≤ a.toNat + a.toNat ↔ 128 ≤ a.toNat := by
  omega

/-- Settles O18: each clause is what ADD writes, at the registers that coincide. -/
theorem addRegisterCoincidences : Obligations.AddRegisterCoincidences := by
  unfold Obligations.AddRegisterCoincidences
  refine fun s => ⟨fun y => execAdd_flag y s, ?flagSource, ?sameTwice, ?bothFlag, fun x y _ _ => execAdd_zero⟩
  case flagSource =>
    intro x target
    obtain ⟨t, run, sum, -⟩ := execAdd_writes x 15 s
    exact ⟨t, run, sum target⟩
  case sameTwice =>
    intro x target
    obtain ⟨t, run, sum, flag⟩ := execAdd_writes x x s
    refine ⟨t, run, ?_, ?_⟩
    · rw [sum target, Nat.two_mul]
    · simpa only [double_carries_iff] using flag
  case bothFlag =>
    rw [exec_add, execAdd_flag]
    simp only [double_carries_iff]

theorem addSum_comm (a b : Byte) : addSum a b = addSum b a := by
  rw [addSum, exactSum, add_comm]
  rfl

theorem addCarry_comm (a b : Byte) : addCarry a b = addCarry b a := by
  rw [addCarry, exactSum, add_comm]
  rfl

/-- Settles O19: sum and carry do not depend on the order of the operands, and ADD writes nothing but its target and the
flag. -/
theorem addCommutes : Obligations.AddCommutes := by
  unfold Obligations.AddCommutes
  intro x y s t u runXY runYX
  obtain rfl : effect (.add x y) s = t := Host.Outcome.next.inj runXY
  obtain rfl : effect (.add y x) s = u := Host.Outcome.next.inj runYX
  refine ⟨?flag, fun hx hy => ?sum, fun r hx hy => ?others, ⟨rfl, rfl, rfl, rfl, rfl, rfl, rfl⟩⟩
  case flag => rw [effect_add_reg, effect_add_reg, if_pos rfl, if_pos rfl, addCarry_comm]
  case sum => rw [effect_add_reg, effect_add_reg, if_neg hx, if_neg hy, if_pos rfl, if_pos rfl, addSum_comm]
  case others => rw [effect_add_reg, effect_add_reg, if_neg hx, if_neg hy, addCarry_comm]

/-! ### CALL and RETURN (43_control_transfer.md) -/

/-- Settles O20: a CALL that finds a free slot pushes and jumps, and one that finds none raises its condition. -/
theorem callPushesReturnAddress : Obligations.CallPushesReturnAddress := by
  unfold Obligations.CallPushesReturnAddress
  refine fun nnn s => ⟨encode_call_toNat nnn, fun free => ?_, fun full => execCall_full nnn full⟩
  exact ⟨_, exec_of_no_cause (execCause_call_eq_none.2 free), effect_call_sp free nnn, effect_call_pc nnn s,
    effect_call_slot free nnn, rfl, rfl, rfl, rfl, rfl⟩

/-- Settles O21: a RETURN with a live entry pops it. -/
theorem returnPopsNewestAddress : Obligations.ReturnPopsNewestAddress := by
  unfold Obligations.ReturnPopsNewestAddress
  intro s live legal
  have nonempty : s.sp ≠ 0 := fun empty => by simp [empty] at live
  refine ⟨_, exec_of_no_cause (execCause_ret_eq_none.2 ⟨nonempty, legal⟩), ?_, fun k => effect_ret_pc, rfl, rfl, rfl,
    rfl, rfl, rfl⟩
  rw [effect_ret_sp nonempty]
  omega

/-- Settles O22: with no live entry RETURN raises its condition. -/
theorem returnOnEmptyStackFaults : Obligations.ReturnOnEmptyStackFaults := by
  unfold Obligations.ReturnOnEmptyStackFaults
  exact ⟨rfl, fun _ empty => execReturn_empty empty⟩

/-- Settles O23: above 16 a pop is not defined and no slot is free, so each of the two raises its condition. -/
theorem illegalStackPointerFaults : Obligations.IllegalStackPointerFaults := by
  unfold Obligations.IllegalStackPointerFaults
  exact fun s illegal => ⟨exec_of_cause (execCause_ret_of_undefined (.inr illegal)),
    fun nnn => execCall_full nnn (Nat.le_of_succ_le illegal)⟩

/-- Settles O24: the push leaves `sp` one above the slot it wrote, which is the slot the pop reads. -/
theorem popAfterPushGivesValue : Obligations.PopAfterPushGivesValue := by
  unfold Obligations.PopAfterPushGivesValue
  intro v s free
  obtain ⟨-, slots, -⟩ := stackPush_spec v free
  have back : (stackPush v s).sp - 1 = s.sp := BitVec.add_sub_cancel s.sp 1
  have index : (s.sp.setWidth 4).toNat = s.sp.toNat := by
    rw [BitVec.toNat_setWidth]
    exact Nat.mod_eq_of_lt (by omega)
  refine ⟨?value, back, fun k below => ?lower⟩
  case value => rw [stackTop, back, slots, if_pos index]
  case lower => rw [stackDrop, State.setSp_slot, slots, if_neg (by omega)]

/-! ### Frames -/

/-- Settles O25: a fatal condition writes the record and `run_state` alone; without one the effect is read off field by
field. -/
theorem instructionFrames : Obligations.InstructionFrames := by
  unfold Obligations.InstructionFrames
  intro i s t run
  obtain ⟨c, cause, rfl⟩ | ⟨noCause, rfl⟩ := exec_next_cases run
  · refine ⟨fun _ => rfl, fun notFaulted => absurd rfl notFaulted, ?_⟩
    cases i with
    | halt => cases cause
    | ret => exact ⟨fun _ => rfl, fun _ => rfl, .inr rfl⟩
    | call nnn => exact ⟨fun _ => rfl, fun _ _ => rfl, .inr rfl⟩
    | add x y => cases cause
  · refine ⟨fun a => by rw [effect_mem], fun _ => ⟨effect_faultCause i s, effect_faultInfo i s⟩, ?_⟩
    cases i with
    | halt => exact ⟨fun _ => rfl, rfl, rfl, fun _ => rfl, rfl, rfl⟩
    | ret => exact ⟨fun _ => rfl, fun _ => rfl, .inl rfl⟩
    | call nnn =>
      have free := execCause_call_eq_none.1 noCause
      refine ⟨fun _ => rfl, fun k other => ?_, .inl rfl⟩
      rw [effect_call_slot free, if_neg other]
    | add x y =>
      refine ⟨fun r notTarget notFlag => ?_, rfl, rfl, fun _ => rfl, rfl, rfl, rfl⟩
      rw [effect_add_reg, if_neg notFlag, if_neg notTarget]

end Sys2Proof.Machine
end

section
/-! PROOFS. The step (40_fetch_decode_step.md R98) as a total function of a Running state, and what every step does: its
transitions (10_state.md R34), its fatal conditions (60_exceptions.md R175 to R179) and its frame. -/

namespace Sys2Proof.Machine

/-! ### The step's next state -/

/-- The next state of a Running machine. `step_running` ties it to `step`. -/
def stepNext (s : State) : State :=
  if 0xFFF ≤ s.pc.toNat then fetchFault s
  else
    match decodeWord s.wordAtPc with
    | .instr i => execNext i (advance s)
    | .unimplemented w => execUnimplemented w (advance s)

theorem stepNext_beyond {s : State} (beyond : 0xFFF ≤ s.pc.toNat) : stepNext s = fetchFault s := if_pos beyond

theorem stepNext_instr {s : State} {i : Instr} (pc : s.pc.toNat ≤ 0xFFE) (decoded : decodeWord s.wordAtPc = .instr i) :
    stepNext s = execNext i (advance s) := by
  rw [stepNext, if_neg (by omega), decoded]

theorem stepNext_unimplemented {s : State} {w : Word} (pc : s.pc.toNat ≤ 0xFFE)
    (outside : decodeWord s.wordAtPc = .unimplemented w) : stepNext s = execUnimplemented w (advance s) := by
  rw [stepNext, if_neg (by omega), outside]

/-- A Running machine has a next state (40_fetch_decode_step.md R99). -/
theorem step_running {s : State} (run : s.runState = .running) : step s = .next (stepNext s) := by
  by_cases beyond : 0xFFF ≤ s.pc.toNat
  · simp only [step, run, fetch_eq_none.2 beyond, stepNext_beyond beyond]
  · have pc : s.pc.toNat ≤ 0xFFE := by omega
    have fetched := fetch_eq_wordAtPc pc
    cases decoded : decodeWord s.wordAtPc with
    | instr i => rw [step_instr run fetched decoded, exec_eq, stepNext_instr pc decoded]
    | unimplemented w =>
      obtain rfl := decodeWord_unimplemented decoded
      rw [step_unimplemented run fetched decoded, stepNext_unimplemented pc decoded]

theorem step_eq_next_iff {s t : State} : step s = .next t ↔ s.runState = .running ∧ t = stepNext s := by
  constructor
  · intro h
    obtain ⟨run, -⟩ := step_next_cases h
    exact ⟨run, Host.Outcome.next.inj (h.symm.trans (step_running run))⟩
  · rintro ⟨run, rfl⟩
    exact step_running run

/-- Only a Running machine steps (10_state.md R34). -/
theorem running_of_step_next {s t : State} (next : step s = .next t) : s.runState = .running := by
  obtain ⟨run, -⟩ := step_eq_next_iff.1 next
  exact run

/-! ### The fatal condition of a step (60_exceptions.md R177) -/

theorem fatalCondition_beyond {s : State} (beyond : 0xFFF ≤ s.pc.toNat) :
    fatalCondition s = some .outOfBoundsFetch := if_pos beyond

theorem fatalCondition_instr {s : State} {i : Instr} (pc : s.pc.toNat ≤ 0xFFE)
    (decoded : decodeWord s.wordAtPc = .instr i) : fatalCondition s = execCause i s := by
  rw [fatalCondition, if_neg (by omega), decoded]
  cases i <;> rfl

theorem fatalCondition_unimplemented {s : State} {w : Word} (pc : s.pc.toNat ≤ 0xFFE)
    (outside : decodeWord s.wordAtPc = .unimplemented w) : fatalCondition s = some .unimplementedOpcode := by
  rw [fatalCondition, if_neg (by omega), outside]

/-- The conditions execute raises are the two of the stack. -/
theorem execCause_eq_some {i : Instr} {s : State} {c : FaultCause} (cause : execCause i s = some c) :
    (i = .ret ∧ c = .stackUnderflow) ∨ (∃ nnn, i = .call nnn ∧ c = .stackOverflow) := by
  cases i with
  | halt => cases cause
  | ret =>
    obtain ⟨-, same⟩ := Option.ite_none_right_eq_some.1 cause
    exact .inl ⟨rfl, (Option.some.inj same).symm⟩
  | call nnn =>
    obtain ⟨-, same⟩ := Option.ite_none_right_eq_some.1 cause
    exact .inr ⟨nnn, rfl, (Option.some.inj same).symm⟩
  | add x y => cases cause

/-- The record of a condition raised by execute is one that R175 allows. -/
theorem recordLegal_encode {i : Instr} {s : State} {c : FaultCause} (cause : execCause i s = some c) :
    recordLegal c (encode i) = true := by
  obtain ⟨rfl, rfl⟩ | ⟨nnn, rfl, rfl⟩ := execCause_eq_some cause
  · rfl
  · obtain ⟨topNibble, -⟩ := fieldsOf_of_c_nnn (w := encode (.call nnn)) rfl
    exact beq_iff_eq.2 topNibble

/-- Every way a Running machine steps: the fetch faults, the fetched word meets a fatal condition that records it, or an
instruction takes effect after the advance. -/
theorem stepNext_cases (s : State) :
    (0xFFF ≤ s.pc.toNat ∧ fatalCondition s = some .outOfBoundsFetch ∧ stepNext s = fetchFault s) ∨
      (∃ c, s.pc.toNat ≤ 0xFFE ∧ fatalCondition s = some c ∧ c ≠ .outOfBoundsFetch ∧ c ≠ .noFault ∧
        recordLegal c s.wordAtPc = true ∧ stepNext s = raise c s.wordAtPc (advance s)) ∨
      (∃ i, s.pc.toNat ≤ 0xFFE ∧ fatalCondition s = none ∧ decodeWord s.wordAtPc = .instr i ∧
        execCause i s = none ∧ stepNext s = effect i (advance s)) := by
  by_cases beyond : 0xFFF ≤ s.pc.toNat
  · exact .inl ⟨beyond, fatalCondition_beyond beyond, stepNext_beyond beyond⟩
  have pc : s.pc.toNat ≤ 0xFFE := by omega
  right
  cases decoded : decodeWord s.wordAtPc with
  | unimplemented w =>
    obtain rfl := decodeWord_unimplemented decoded
    exact .inl ⟨_, pc, fatalCondition_unimplemented pc decoded, by decide, by decide, beq_iff_eq.2 decoded,
      stepNext_unimplemented pc decoded⟩
  | instr i =>
    have next := stepNext_instr pc decoded
    have fatal := fatalCondition_instr pc decoded
    cases cause : execCause i s with
    | none =>
      rw [execNext_of_no_cause ((execCause_advance i s).trans cause)] at next
      exact .inr ⟨i, pc, fatal.trans cause, rfl, cause, next⟩
    | some c =>
      rw [execNext_of_cause ((execCause_advance i s).trans cause), encode_of_decodeWord decoded] at next
      have legal := recordLegal_encode cause
      rw [encode_of_decodeWord decoded] at legal
      refine .inl ⟨c, pc, fatal.trans cause, ?_, ?_, legal, next⟩ <;>
        obtain ⟨-, rfl⟩ | ⟨-, -, rfl⟩ := execCause_eq_some cause <;> decide

/-! ### Successors and transitions (40_fetch_decode_step.md R99, 10_state.md R34) -/

/-- Settles O12: a Running state steps to `stepNext`, and only a Running state steps. -/
theorem runningStateHasSuccessor : Obligations.RunningStateHasSuccessor := by
  unfold Obligations.RunningStateHasSuccessor
  exact fun s => ⟨fun run => ⟨_, step_running run⟩, fun ⟨_, next⟩ => running_of_step_next next⟩

/-- A step ends Faulted exactly when it meets a fatal condition. -/
theorem stepNext_faulted_iff {s : State} (run : s.runState = .running) :
    (stepNext s).runState = .faulted ↔ fatalCondition s ≠ none := by
  obtain ⟨-, fatal, next⟩ | ⟨c, -, fatal, -, -, -, next⟩ | ⟨i, -, fatal, -, -, next⟩ := stepNext_cases s
  · simp [fatal, next, fetchFault]
  · simp [fatal, next]
  · rw [next, effect_runState, advance_runState, run, fatal]
    split_ifs <;> simp

/-- A step ends Halted exactly when the word at `pc` is HALT. -/
theorem stepNext_halted_iff {s : State} (run : s.runState = .running) :
    (stepNext s).runState = .halted ↔ s.pc.toNat ≤ 0xFFE ∧ decodeWord s.wordAtPc = .instr .halt := by
  obtain ⟨beyond, -, next⟩ | ⟨c, pc, fatal, -, -, -, next⟩ | ⟨i, pc, -, decoded, -, next⟩ := stepNext_cases s
  · rw [next]
    exact iff_of_false (by simp [fetchFault]) (by omega)
  · rw [next]
    refine iff_of_false (by simp) fun ⟨_, halt⟩ => ?_
    rw [fatalCondition_instr pc halt] at fatal
    cases fatal
  · rw [next, effect_runState, advance_runState, run, decoded]
    simp [pc]

/-- Settles O13: only a Running state has a next state, and the two ends of its step are read off the step's cases. -/
theorem runStateTransitions : Obligations.RunStateTransitions := by
  unfold Obligations.RunStateTransitions
  refine ⟨fun _ _ => running_of_step_next, fun s t run next => ?_⟩
  obtain ⟨-, rfl⟩ := step_eq_next_iff.1 next
  exact ⟨stepNext_halted_iff run, stepNext_faulted_iff run⟩

/-! ### HALT and the unseeded machine (41_system_halt.md R110, R112) -/

/-- The step that fetches 0x0000 leaves `pc` just past it, Halted. -/
theorem stepNext_halt {s : State} (pc : s.pc.toNat ≤ 0xFFE) (word : s.wordAtPc = 0x0000) :
    stepNext s = { s with pc := s.pc + 2, runState := .halted } := by
  have decoded : decodeWord s.wordAtPc = .instr .halt := by
    rw [word]
    rfl
  rw [stepNext_instr pc decoded]
  rfl

/-- Settles O14: the step is HALT's effect after the advance, and a Halted state has no next one. -/
theorem haltStopsTheRun : Obligations.HaltStopsTheRun := by
  unfold Obligations.HaltStopsTheRun
  refine ⟨rfl, fun _ => rfl, fun s run pc word => ⟨_, step_running run, stepNext_halt pc word, ?_, ?_⟩⟩
  all_goals rw [stepNext_halt pc word]
  · rfl
  · exact runLoop_stopped (by simp)

/-- Settles O34: reset is Running at 0 with no fault recorded, and only a Running state has a next one. -/
theorem resetRunsFromZeroWithNoFault : Obligations.ResetRunsFromZeroWithNoFault := by
  unfold Obligations.ResetRunsFromZeroWithNoFault
  exact ⟨rfl, rfl, rfl, rfl, fun s stopped t next => stopped (running_of_step_next next)⟩

/-- Settles O35: the unseeded machine fetches 0x0000 at address 0. -/
theorem unseededMachineHaltsAtOnce : Obligations.UnseededMachineHaltsAtOnce := by
  unfold Obligations.UnseededMachineHaltsAtOnce
  exact (step_running rfl).trans (congrArg _ (stepNext_halt (by decide) rfl))

/-! ### Fatal conditions (60_exceptions.md R175 to R179) -/

/-- Settles O9: beyond 0xFFE no word is fetched and the step records the fetch fault; below it a word always is. -/
theorem fetchBeyondTopFaults : Obligations.FetchBeyondTopFaults := by
  unfold Obligations.FetchBeyondTopFaults
  refine ⟨fun s run beyond => ⟨fetch_eq_none.2 beyond, ?_⟩, fun s pc => ?_⟩
  · rw [step_running run, stepNext_beyond beyond]
    rfl
  · rw [fetch_eq_wordAtPc pc]
    exact Option.some_ne_none _

/-- Settles O30: a fatal condition is recorded by the step that meets it, and an instruction's effect leaves the record. -/
theorem faultRecordNamesTheCondition : Obligations.FaultRecordNamesTheCondition := by
  unfold Obligations.FaultRecordNamesTheCondition
  intro s t step
  obtain ⟨run, rfl⟩ := step_eq_next_iff.1 step
  refine ⟨fun c met => ?met, fun notMet => ?notMet⟩
  case met =>
    obtain ⟨-, fatal, next⟩ | ⟨d, -, fatal, notFetch, -, -, next⟩ | ⟨i, -, fatal, -⟩ := stepNext_cases s
    · obtain rfl : FaultCause.outOfBoundsFetch = c := Option.some.inj (fatal.symm.trans met)
      rw [next, if_pos rfl]
      exact ⟨rfl, rfl, rfl⟩
    · obtain rfl : d = c := Option.some.inj (fatal.symm.trans met)
      rw [next, if_neg notFetch]
      exact ⟨rfl, rfl, rfl⟩
    · cases fatal.symm.trans met
  case notMet =>
    refine ⟨fun faulted => (stepNext_faulted_iff run).1 faulted notMet, ?_⟩
    obtain ⟨-, fatal, -⟩ | ⟨d, -, fatal, -⟩ | ⟨i, -, -, -, -, next⟩ := stepNext_cases s
    · cases fatal.symm.trans notMet
    · cases fatal.symm.trans notMet
    · rw [next, effect_faultCause, effect_faultInfo]
      exact ⟨rfl, rfl⟩

/-- Settles O32: a step that ends Faulted raised a condition, before the advance for the fetch and after it otherwise. -/
theorem faultsArePrecise : Obligations.FaultsArePrecise := by
  unfold Obligations.FaultsArePrecise
  intro s t step faulted
  obtain ⟨run, rfl⟩ := step_eq_next_iff.1 step
  obtain ⟨beyond, -, next⟩ | ⟨c, pc, -, -, -, -, next⟩ | ⟨i, -, fatal, -⟩ := stepNext_cases s
  · rw [next, if_pos beyond]
    exact ⟨rfl, rfl, rfl, rfl, rfl⟩
  · rw [next, if_neg (by omega)]
    exact ⟨rfl, rfl, rfl, rfl, rfl⟩
  · exact absurd fatal ((stepNext_faulted_iff run).1 faulted)

/-- Settles O31: the codes are the table's. -/
theorem statusCodesAreAsListed : Obligations.StatusCodesAreAsListed := by
  unfold Obligations.StatusCodesAreAsListed
  exact ⟨rfl, rfl, rfl, rfl, rfl, rfl, rfl, rfl⟩

/-- Settles O47: the read-out is chosen by `run_state`. -/
theorem hostReadsStateOnlyAfterHalt : Obligations.HostReadsStateOnlyAfterHalt := by
  unfold Obligations.HostReadsStateOnlyAfterHalt
  refine fun s => ⟨fun run => ?_, fun halted => ?_, fun faulted => ?_⟩
  · rw [readOut, run]
  · rw [readOut, halted]
  · rw [readOut, faulted]

/-! ### What every step keeps -/

/-- No step writes memory (20_memory.md R58). -/
@[simp] theorem stepNext_mem (s : State) : (stepNext s).mem = s.mem := by
  obtain ⟨-, -, next⟩ | ⟨c, -, -, -, -, -, next⟩ | ⟨i, -, -, -, -, next⟩ := stepNext_cases s
  · rw [next]; rfl
  · rw [next]; rfl
  · rw [next, effect_mem, advance_mem]

/-- Settles O39: memory stays, `sp` stays legal, and the record is written by the step that faults, with a legal pair, or left
by a step that does not. -/
theorem stepKeepsInvariant : Obligations.StepKeepsInvariant := by
  unfold Obligations.StepKeepsInvariant
  rintro s t ⟨canonical, spLegal, recorded, recordIsLegal⟩ step
  obtain ⟨run, rfl⟩ := step_eq_next_iff.1 step
  refine ⟨by rwa [stepNext_mem], step_sp_le spLegal step, ?_, ?_⟩
  all_goals
    obtain ⟨beyond, -, next⟩ | ⟨c, -, -, -, isFault, legal, next⟩ | ⟨i, -, -, -, -, next⟩ := stepNext_cases s
  · rw [next]
    exact iff_of_true rfl (by simp [fetchFault])
  · rw [next]
    exact iff_of_true rfl isFault
  · have notRecorded : ¬s.faultCause ≠ .noFault := fun fault => by cases run.symm.trans (recorded.2 fault)
    rw [next, effect_faultCause, effect_runState, advance_runState, run]
    exact iff_of_false (by split_ifs <;> simp) notRecorded
  · rw [next]
    exact decide_eq_true beyond
  · rw [next]
    exact legal
  · rw [next, effect_faultCause, effect_faultInfo]
    exact recordIsLegal

/-- Settles O42: of the instructions only ADD's effect writes the register file, and it is computed from the two operands. -/
theorem onlyAddTouchesRegisters : Obligations.OnlyAddTouchesRegisters := by
  unfold Obligations.OnlyAddTouchesRegisters
  refine ⟨fun s t step notAdd => ?frame, fun x y s u t v runS runU sameX sameY => ?operands⟩
  case frame =>
    obtain ⟨-, rfl⟩ := step_eq_next_iff.1 step
    obtain ⟨-, -, next⟩ | ⟨c, -, -, -, -, -, next⟩ | ⟨i, -, -, decoded, -, next⟩ := stepNext_cases s
    · rw [next]; rfl
    · rw [next]; rfl
    · have other : ∀ x y, i ≠ .add x y := fun x y add => notAdd x y (by rw [decoded, add])
      rw [next, effect_regs other, advance_regs]
  case operands =>
    obtain rfl : effect (.add x y) s = t := Host.Outcome.next.inj runS
    obtain rfl : effect (.add x y) u = v := Host.Outcome.next.inj runU
    refine ⟨?target, ?flag, fun r notTarget notFlag => ⟨?_, ?_⟩⟩
    case target => simp only [effect_add_reg, sameX, sameY, if_true]
    case flag => rw [effect_add_reg, effect_add_reg, sameX, sameY, if_pos rfl, if_pos rfl]
    all_goals rw [effect_add_reg, if_neg notFlag, if_neg notTarget]

end Sys2Proof.Machine
end

section
/-! PROOFS. Sequences of steps: CALL and RETURN together (43_control_transfer.md R134, R135, R138), and the run loop
(40_fetch_decode_step.md R100, R102; 41_system_halt.md R111). -/

namespace Sys2Proof.Machine

/-! ### A CALL whose target holds a RETURN (43_control_transfer.md R134) -/

/-- The step of a fetched instruction that meets no fatal condition: the advance, then its effect. -/
theorem stepNext_effect {s : State} {i : Instr} (pc : s.pc.toNat ≤ 0xFFE) (word : s.wordAtPc = encode i)
    (noCause : execCause i s = none) : stepNext s = effect i (advance s) := by
  have decoded : decodeWord s.wordAtPc = .instr i := by rw [word, decodeWord_encode]
  rw [stepNext_instr pc decoded, execNext_of_no_cause ((execCause_advance i s).trans noCause)]

/-- The step that fetches a CALL, where a slot is free. -/
theorem step_call {s : State} {nnn : Addr} (run : s.runState = .running) (pc : s.pc.toNat ≤ 0xFFE)
    (word : s.wordAtPc = encode (.call nnn)) (free : s.sp.toNat ≤ 15) :
    ∃ t, step s = .next t ∧ t.sp.toNat = s.sp.toNat + 1 ∧ t.pc.toNat = nnn.toNat ∧
      (∀ k : BitVec 4, t.slot k = if k.toNat = s.sp.toNat then s.pc + 2 else s.slot k) ∧
      t.regs = s.regs ∧ t.mem = s.mem ∧ t.runState = .running := by
  refine ⟨effect (.call nnn) (advance s), ?step, effect_call_sp free nnn, effect_call_pc nnn _,
    effect_call_slot (s := advance s) free nnn, rfl, rfl, run⟩
  case step => rw [step_running run, stepNext_effect pc word (execCause_call_eq_none.2 free)]

/-- The step that fetches a RETURN, where the stack is not empty. -/
theorem step_ret {s : State} (run : s.runState = .running) (pc : s.pc.toNat ≤ 0xFFE) (word : s.wordAtPc = encode .ret)
    (nonempty : s.sp ≠ 0) (legal : s.sp.toNat ≤ 16) :
    ∃ t, step s = .next t ∧ t.sp.toNat = s.sp.toNat - 1 ∧ (∀ k : BitVec 4, k.toNat + 1 = s.sp.toNat → t.pc = s.slot k) ∧
      (∀ k, t.slot k = s.slot k) ∧ t.regs = s.regs ∧ t.mem = s.mem ∧ t.runState = .running := by
  refine ⟨effect .ret (advance s), ?step, effect_ret_sp (s := advance s) nonempty,
    fun k => effect_ret_pc (s := advance s), fun _ => rfl, rfl, rfl, run⟩
  case step => rw [step_running run, stepNext_effect pc word (execCause_ret_eq_none.2 ⟨nonempty, legal⟩)]

/-- Settles O26: the CALL's step leaves the advanced `pc` in the newest slot and the fetch at its target, and the RETURN's
step takes that slot. -/
theorem callThenReturnResumes : Obligations.CallThenReturnResumes := by
  unfold Obligations.CallThenReturnResumes
  intro nnn s run pc free callWord target retWord
  obtain ⟨t, call, callSp, callPc, callSlots, callRegs, callMem, callRun⟩ := step_call run pc callWord free
  have word : t.wordAtPc = encode .ret := by rw [State.wordAtPc, callMem, callPc, retWord]
  have nonempty : t.sp ≠ 0 := fun empty => by simp [empty] at callSp
  obtain ⟨u, ret, retSp, retPc, retSlots, retRegs, retMem, retRun⟩ :=
    step_ret callRun (by omega) word nonempty (by omega)
  have index : (BitVec.ofNat 4 s.sp.toNat).toNat = s.sp.toNat := Nat.mod_eq_of_lt (Nat.lt_succ_of_le free)
  refine ⟨t, u, call, ret, ?pc, BitVec.eq_of_toNat_eq (by omega), fun k => (retSlots k).trans (callSlots k),
    retRegs.trans callRegs, retMem.trans callMem, retRun⟩
  case pc => rw [retPc _ (by rw [index, callSp]), callSlots, if_pos index, pc_add_two_toNat pc]

/-! ### Sequences of instructions (43_control_transfer.md R135) -/

theorem execAll_cons (i : Instr) (is : List Instr) (s : State) :
    execAll (i :: is) s = if (execNext i s).runState = .running then execAll is (execNext i s) else none := by
  rw [execAll, exec_eq]

/-- CALLs that the free slots hold all complete, one slot each. -/
theorem execAll_calls {targets : List Addr} {s : State} (run : s.runState = .running)
    (fits : s.sp.toNat + targets.length ≤ 16) :
    ∃ t, execAll (targets.map Instr.call) s = some t ∧ t.sp.toNat = s.sp.toNat + targets.length := by
  induction targets generalizing s with
  | nil => exact ⟨s, rfl, rfl⟩
  | cons nnn targets ih =>
    rw [List.length_cons] at fits
    have free : s.sp.toNat ≤ 15 := by omega
    have next := execNext_of_no_cause (execCause_call_eq_none (nnn := nnn).2 free)
    have sp := effect_call_sp free nnn
    obtain ⟨t, rest, count⟩ := ih (s := effect (.call nnn) s) run (by omega)
    refine ⟨t, ?_, by rw [List.length_cons]; omega⟩
    rw [List.map_cons, execAll_cons, next]
    exact (if_pos run).trans rest

/-- More CALLs than the free slots hold do not complete: one of them finds the stack full. -/
theorem execAll_calls_overflow {targets : List Addr} {s : State} (legal : s.sp.toNat ≤ 16)
    (tooMany : 17 ≤ s.sp.toNat + targets.length) : execAll (targets.map Instr.call) s = none := by
  induction targets generalizing s with
  | nil => exact absurd tooMany (Nat.not_le.2 (Nat.lt_succ_of_le legal))
  | cons nnn targets ih =>
    rw [List.length_cons] at tooMany
    rw [List.map_cons, execAll_cons]
    by_cases free : s.sp.toNat ≤ 15
    · have sp := effect_call_sp free nnn
      rw [execNext_of_no_cause (execCause_call_eq_none.2 free), ih (by omega) (by omega), ite_self]
    · rw [execNext_of_cause (execCause_call_of_full (by omega) nnn), if_neg (by simp)]

/-- Settles O27: from an empty stack the CALLs complete while slots are free, a CALL after 16 finds none, and 17 are too
many. -/
theorem nestedCallsSucceedToCapacity : Obligations.NestedCallsSucceedToCapacity := by
  unfold Obligations.NestedCallsSucceedToCapacity
  intro targets s run empty
  have zero : s.sp.toNat = 0 := by rw [empty]; rfl
  refine ⟨fun fits => ?_, fun tooMany => execAll_calls_overflow (by omega) (by omega)⟩
  obtain ⟨t, completes, count⟩ := execAll_calls run (targets := targets) (by omega)
  exact ⟨t, completes, by omega, fun full nnn => ⟨_, exec_of_cause (execCause_call_of_full (by omega) nnn), rfl, rfl⟩⟩

/-- One instruction that completes moves `sp` up for a CALL, down for a RETURN, and not otherwise. -/
theorem effect_sp_balance {i : Instr} {s : State} (noCause : execCause i s = none) :
    (effect i s).sp.toNat + [i].count .ret = s.sp.toNat + [i].countP (fun i => i.mnemonic == "CALL") := by
  cases i with
  | halt => rfl
  | ret =>
    obtain ⟨nonempty, -⟩ := execCause_ret_eq_none.1 noCause
    have live : s.sp.toNat ≠ 0 := fun zero => nonempty (BitVec.eq_of_toNat_eq zero)
    have counts : [Instr.ret].count .ret = 1 ∧ [Instr.ret].countP (fun i => i.mnemonic == "CALL") = 0 := by decide
    rw [effect_ret_sp nonempty]
    omega
  | call nnn => exact effect_call_sp (execCause_call_eq_none.1 noCause) nnn
  | add x y => rfl

/-- Settles O28: an instruction of a sequence that completes met no fatal condition, and the balance of each adds up. -/
theorem liveEntriesCountCallsLessReturns : Obligations.LiveEntriesCountCallsLessReturns := by
  unfold Obligations.LiveEntriesCountCallsLessReturns
  intro is s t completes
  induction is generalizing s with
  | nil =>
    obtain rfl : s = t := Option.some.inj completes
    rfl
  | cons i is ih =>
    rw [execAll_cons] at completes
    obtain ⟨running, rest⟩ := Option.ite_none_right_eq_some.1 completes
    cases cause : execCause i s with
    | some c =>
      rw [execNext_of_cause cause] at running
      cases running
    | none =>
      rw [execNext_of_no_cause cause] at rest
      have later := ih _ rest
      have first := effect_sp_balance cause
      rw [← List.singleton_append, List.count_append, List.countP_append]
      omega

/-! ### The run loop (40_fetch_decode_step.md R100) -/

theorem runLoop_running {s : State} (run : s.runState = .running) (n : Nat) :
    runLoop (n + 1) s = runLoop n (stepNext s) := runLoop_next (step_running run) n

/-- The loop's last step, where it still runs. -/
theorem runLoop_succ_running {n : Nat} {s : State} (run : (runLoop n s).runState = .running) :
    runLoop (n + 1) s = stepNext (runLoop n s) := by
  induction n generalizing s with
  | zero => exact runLoop_running run 0
  | succ n ih =>
    by_cases start : s.runState = .running
    · rw [runLoop_running start] at run ⊢
      rw [ih run, runLoop_running start]
    · rw [runLoop_stopped start] at run
      exact absurd run start

/-- Once it has stopped the loop stays where it is. -/
theorem runLoop_succ_stopped {n : Nat} {s : State} (stopped : (runLoop n s).runState ≠ .running) :
    runLoop (n + 1) s = runLoop n s := by
  induction n generalizing s with
  | zero => exact runLoop_stopped stopped 1
  | succ n ih =>
    by_cases start : s.runState = .running
    · rw [runLoop_running start] at stopped ⊢
      rw [ih stopped, runLoop_running start]
    · rw [runLoop_stopped start, runLoop_stopped start]

/-- What a step of a Running machine keeps, the run loop keeps. -/
theorem runLoop_keeps {P : State → Prop} (keeps : ∀ s, s.runState = .running → P s → P (stepNext s)) (n : Nat)
    {s : State} (holds : P s) : P (runLoop n s) := by
  induction n with
  | zero => exact holds
  | succ n ih =>
    by_cases run : (runLoop n s).runState = .running
    · rw [runLoop_succ_running run]
      exact keeps _ run ih
    · rwa [runLoop_succ_stopped run]

/-- Settles O41: no step writes memory, so the loop does not. -/
theorem runNeverWritesMemory : Obligations.RunNeverWritesMemory := by
  unfold Obligations.RunNeverWritesMemory
  intro n s a
  have mem : (runLoop n s).mem = s.mem :=
    runLoop_keeps (P := fun t => t.mem = s.mem) (fun t _ same => (stepNext_mem t).trans same) n rfl
  rw [mem]

/-! ### Registers never steer the run (43_control_transfer.md R138) -/

theorem SameButRegs.exists_regs {s u : State} (same : SameButRegs s u) : ∃ regs, u = { s with regs := regs } := by
  obtain ⟨pc, mem, stack, sp, run, cause, info⟩ := same
  exact ⟨u.regs, State.eq_of_fields rfl pc.symm mem.symm stack.symm sp.symm run.symm cause.symm info.symm⟩

/-- Execute, from states alike but for the registers: the condition is decided by `sp`, and no effect takes anything but a
register from a register. -/
theorem execNext_sameButRegs (i : Instr) (s : State) (regs : Vector Byte 16) :
    SameButRegs (execNext i s) (execNext i { s with regs := regs }) := by
  have same : execCause i { s with regs := regs } = execCause i s := by cases i <;> rfl
  cases cause : execCause i s with
  | some c =>
    rw [execNext_of_cause cause, execNext_of_cause (same.trans cause)]
    exact ⟨rfl, rfl, rfl, rfl, rfl, rfl, rfl⟩
  | none =>
    rw [execNext_of_no_cause cause, execNext_of_no_cause (same.trans cause)]
    cases i <;> exact ⟨rfl, rfl, rfl, rfl, rfl, rfl, rfl⟩

/-- The step, from states alike but for the registers: the word fetched is the same. -/
theorem stepNext_sameButRegs {s u : State} (same : SameButRegs s u) : SameButRegs (stepNext s) (stepNext u) := by
  obtain ⟨regs, rfl⟩ := same.exists_regs
  by_cases beyond : 0xFFF ≤ s.pc.toNat
  · rw [stepNext_beyond beyond, stepNext_beyond (s := { s with regs := regs }) beyond]
    exact ⟨rfl, rfl, rfl, rfl, rfl, rfl, rfl⟩
  have pc : s.pc.toNat ≤ 0xFFE := by omega
  cases decoded : decodeWord s.wordAtPc with
  | instr i =>
    rw [stepNext_instr pc decoded, stepNext_instr (s := { s with regs := regs }) pc decoded]
    exact execNext_sameButRegs i (advance s) regs
  | unimplemented w =>
    rw [stepNext_unimplemented pc decoded, stepNext_unimplemented (s := { s with regs := regs }) pc decoded]
    exact ⟨rfl, rfl, rfl, rfl, rfl, rfl, rfl⟩

/-- Settles O43: the two runs stop together, and each step keeps them alike but for the registers. -/
theorem registersNeverSteerTheRun : Obligations.RegistersNeverSteerTheRun := by
  unfold Obligations.RegistersNeverSteerTheRun
  intro n
  induction n with
  | zero => exact fun s u same => same
  | succ n ih =>
    intro s u same
    by_cases run : s.runState = .running
    · rw [runLoop_running run, runLoop_running (same.runState.symm.trans run)]
      exact ih _ _ (stepNext_sameButRegs same)
    · rw [runLoop_stopped run, runLoop_stopped (same.runState ▸ run)]
      exact same

/-! ### Every run ends (40_fetch_decode_step.md R102)

An address weighs the more the lower it is. Written as digits, the saved addresses from the oldest to the newest and then
`pc`, padded to 17 digits, the weights form a number that every step which keeps running lowers: ADD lowers the digit of
`pc`; CALL puts a lower digit, the advanced `pc`, in that place and a new one behind it; RETURN drops the last digit. -/

/-- The weight of an address: from 1 to the number of 16-bit words. -/
def weight (w : Word) : Nat := 0x10000 - w.toNat

/-- One more than the greatest weight. -/
def rankBase : Nat := 0x10001

/-- The oldest `d` saved addresses as digits, with a digit of 0 behind them. -/
def savedRank (s : State) : Nat → Nat
  | 0 => 0
  | d + 1 => (savedRank s d + weight (s.slot (BitVec.ofNat 4 d))) * rankBase

/-- What every step that keeps running lowers; `stepNext_rank_lt` ties it to the step. -/
def rank (s : State) : Nat := (savedRank s s.sp.toNat + weight s.pc) * rankBase ^ (16 - s.sp.toNat)

theorem weight_pos (w : Word) : 0 < weight w := by
  have := w.isLt
  unfold weight
  omega

theorem weight_lt_rankBase (w : Word) : weight w < rankBase := by
  unfold weight rankBase
  omega

theorem rankBase_pow_pos (n : Nat) : 0 < rankBase ^ n := Nat.pow_pos (by decide)

/-- The advance lowers the weight of `pc`. -/
theorem weight_advance_lt {s : State} (pc : s.pc.toNat ≤ 0xFFE) : weight (s.pc + 2) < weight s.pc := by
  rw [weight, weight, pc_add_two_toNat pc]
  omega

theorem savedRank_congr {s t : State} {d : Nat} (same : ∀ i < d, t.slot (BitVec.ofNat 4 i) = s.slot (BitVec.ofNat 4 i)) :
    savedRank t d = savedRank s d := by
  induction d with
  | zero => rfl
  | succ d ih => rw [savedRank, savedRank, ih fun i lt => same i (by omega), same d (by omega)]

theorem rank_add_lt {s : State} (pc : s.pc.toNat ≤ 0xFFE) (x y : RegIdx) : rank (effect (.add x y) (advance s)) < rank s := by
  have saved : savedRank (effect (.add x y) (advance s)) s.sp.toNat = savedRank s s.sp.toNat :=
    savedRank_congr fun _ _ => rfl
  show (savedRank (effect (.add x y) (advance s)) s.sp.toNat + weight (s.pc + 2)) * rankBase ^ (16 - s.sp.toNat) < rank s
  rw [saved, rank]
  exact Nat.mul_lt_mul_of_pos_right (Nat.add_lt_add_left (weight_advance_lt pc) _) (rankBase_pow_pos _)

theorem rank_call_lt {s : State} (pc : s.pc.toNat ≤ 0xFFE) (free : s.sp.toNat ≤ 15) (nnn : Addr) :
    rank (effect (.call nnn) (advance s)) < rank s := by
  have slots := effect_call_slot (s := advance s) free nnn
  have index {i : Nat} (le : i ≤ 15) : (BitVec.ofNat 4 i).toNat = i := Nat.mod_eq_of_lt (by omega)
  have older : savedRank (effect (.call nnn) (advance s)) s.sp.toNat = savedRank s s.sp.toNat :=
    savedRank_congr fun i lt => by
      rw [slots, if_neg (by rw [index (by omega), advance_sp]; omega), advance_slot]
  have newest : (effect (.call nnn) (advance s)).slot (BitVec.ofNat 4 s.sp.toNat) = s.pc + 2 := by
    rw [slots, advance_sp, if_pos (index free), advance_pc]
  have places : 16 - s.sp.toNat = (16 - (s.sp.toNat + 1)) + 1 := by omega
  rw [rank, effect_call_sp (s := advance s) free, advance_sp, savedRank, older, newest, rank, places, Nat.pow_succ',
    ← Nat.mul_assoc]
  refine Nat.mul_lt_mul_of_pos_right ?_ (rankBase_pow_pos _)
  calc (savedRank s s.sp.toNat + weight (s.pc + 2)) * rankBase + weight (effect (.call nnn) (advance s)).pc
      < (savedRank s s.sp.toNat + weight (s.pc + 2)) * rankBase + rankBase :=
        Nat.add_lt_add_left (weight_lt_rankBase _) _
    _ = (savedRank s s.sp.toNat + weight (s.pc + 2) + 1) * rankBase := (Nat.succ_mul _ _).symm
    _ ≤ (savedRank s s.sp.toNat + weight s.pc) * rankBase :=
        Nat.mul_le_mul_right _ (Nat.add_lt_add_left (weight_advance_lt pc) _)

theorem rank_ret_lt {s : State} (nonempty : s.sp ≠ 0) (legal : s.sp.toNat ≤ 16) :
    rank (effect .ret (advance s)) < rank s := by
  obtain ⟨d, sp⟩ : ∃ d, s.sp.toNat = d + 1 :=
    Nat.exists_eq_succ_of_ne_zero fun zero => nonempty (BitVec.eq_of_toNat_eq zero)
  have index : (BitVec.ofNat 4 d).toNat = d := Nat.mod_eq_of_lt (by omega)
  have newest : (effect .ret (advance s)).pc = s.slot (BitVec.ofNat 4 d) :=
    effect_ret_pc (s := advance s) (by rw [index, advance_sp, sp])
  have older : savedRank (effect .ret (advance s)) d = savedRank s d := savedRank_congr fun _ _ => rfl
  have places : 16 - d = (16 - (d + 1)) + 1 := by omega
  rw [rank, effect_ret_sp (s := advance s) nonempty, advance_sp, sp, Nat.add_sub_cancel, newest, older, places,
    Nat.pow_succ', ← Nat.mul_assoc, rank, sp, savedRank]
  exact Nat.mul_lt_mul_of_pos_right (Nat.lt_add_of_pos_right (weight_pos _)) (rankBase_pow_pos _)

/-- A step that keeps running lowers the rank: it met no fatal condition and was no HALT. -/
theorem stepNext_rank_lt {s : State} (run : (stepNext s).runState = .running) : rank (stepNext s) < rank s := by
  obtain ⟨-, -, next⟩ | ⟨c, -, -, -, -, -, next⟩ | ⟨i, pc, -, -, noCause, next⟩ := stepNext_cases s
  · rw [next] at run
    cases run
  · rw [next] at run
    cases run
  · rw [next] at run ⊢
    cases i with
    | halt => cases run
    | ret =>
      obtain ⟨nonempty, legal⟩ := execCause_ret_eq_none.1 noCause
      exact rank_ret_lt nonempty legal
    | call nnn => exact rank_call_lt pc (execCause_call_eq_none.1 noCause) nnn
    | add x y => exact rank_add_lt pc x y

theorem ends_of_stepNext {s : State} (run : s.runState = .running) (h : Ends (stepNext s)) : Ends s := by
  obtain ⟨n, stopped⟩ := h
  exact ⟨n + 1, by rwa [runLoop_running run]⟩

/-- Settles O45, by induction on the rank. -/
theorem everyRunEnds : Obligations.EveryRunEnds := by
  unfold Obligations.EveryRunEnds
  intro s
  induction s using (measure rank).wf.induction with
  | _ s ih =>
    by_cases run : s.runState = .running
    · refine ends_of_stepNext run ?_
      by_cases still : (stepNext s).runState = .running
      · exact ih _ (stepNext_rank_lt still)
      · exact ⟨0, still⟩
    · exact ⟨0, run⟩

/-! ### How a run ends (41_system_halt.md R111) -/

/-- A run that has stopped did so by a step of a state of the run that was still Running. -/
theorem exists_last_step {n : Nat} {s : State} (start : s.runState = .running)
    (stopped : (runLoop n s).runState ≠ .running) :
    ∃ k, k < n ∧ (runLoop k s).runState = .running ∧ runLoop n s = stepNext (runLoop k s) := by
  induction n with
  | zero => exact absurd start stopped
  | succ n ih =>
    by_cases run : (runLoop n s).runState = .running
    · exact ⟨n, by omega, run, runLoop_succ_running run⟩
    · obtain ⟨k, lt, last, step⟩ := ih run
      exact ⟨k, by omega, last, (runLoop_succ_stopped run).trans step⟩

/-- The word of HALT is the one that decodes to it. -/
theorem decodeWord_eq_halt_iff {w : Word} : decodeWord w = .instr .halt ↔ w = 0x0000 :=
  decodeWord_eq_iff.trans (fieldsOf_isHalt_iff w)

/-- Settles O44: the last step before a Halted state fetched HALT, and the last step before a Faulted one met a fatal
condition. -/
theorem haltIsTheOnlyNormalEnd : Obligations.HaltIsTheOnlyNormalEnd := by
  unfold Obligations.HaltIsTheOnlyNormalEnd
  refine fun s start => ⟨fun t => ⟨?byHalt, ?halts⟩, ?faults⟩
  case byHalt =>
    rintro ⟨n, rfl, halted⟩
    obtain ⟨k, -, run, last⟩ := exists_last_step start (by rw [halted]; decide)
    rw [last] at halted ⊢
    obtain ⟨pc, decoded⟩ := (stepNext_halted_iff run).1 halted
    have word := decodeWord_eq_halt_iff.1 decoded
    exact ⟨k, run, pc, word, stepNext_halt pc word⟩
  case halts =>
    rintro ⟨n, run, pc, word, rfl⟩
    exact ⟨n + 1, (runLoop_succ_running run).trans (stepNext_halt pc word), rfl⟩
  case faults =>
    intro n stopped notHalted
    obtain ⟨k, lt, run, last⟩ := exists_last_step start stopped
    refine ⟨k, lt, run, (stepNext_faulted_iff run).1 ?_⟩
    rw [← last]
    cases ended : (runLoop n s).runState with
    | running => exact absurd ended stopped
    | halted => exact absurd ended notHalted
    | faulted => rfl

end Sys2Proof.Machine
end

section
/-! PROOFS. The host's seeding (70_reset_and_hazards.md R203 to R205), and what holds of every launch state: the invariant,
and the bound on `pc` and the saved addresses (10_state.md R27). -/

namespace Sys2Proof.Machine

/-! ### What seeding leaves as reset made it -/

theorem hostWrite_isLaunch (w : HostWrite) {s : State} (launched : s.IsLaunch) : (hostWrite w s).IsLaunch := by
  obtain ⟨stack, sp, run, cause, info⟩ := launched
  cases w <;> exact ⟨stack, sp, run, cause, info⟩

theorem hostWrite_mem_wf (w : HostWrite) {s : State} (canonical : Memory.wf s.mem = true) :
    Memory.wf (hostWrite w s).mem = true := by
  cases w with
  | reg i v => exact canonical
  | mem a v => exact Memory.write_wf v canonical a.isLt
  | pc v => exact canonical

/-- What each write of the host keeps, its whole seeding keeps. -/
theorem seed_keeps {P : State → Prop} (keeps : ∀ w s, P s → P (hostWrite w s)) (ws : List HostWrite) {s : State}
    (holds : P s) : P (seed ws s) := by
  induction ws generalizing s with
  | nil => exact holds
  | cons w ws ih => exact ih (keeps w s holds)

theorem launch_isLaunch (ws : List HostWrite) : (launch ws).IsLaunch :=
  seed_keeps (fun w _ => hostWrite_isLaunch w) ws ⟨State.reset_slot, rfl, rfl, rfl, rfl⟩

theorem launch_mem_wf (ws : List HostWrite) : Memory.wf (launch ws).mem = true :=
  seed_keeps (P := fun s => Memory.wf s.mem = true) (fun w _ => hostWrite_mem_wf w) ws reset_mem_wf

/-! ### A seeding for every launch state -/

theorem seed_append (ws vs : List HostWrite) (s : State) : seed (ws ++ vs) s = seed vs (seed ws s) := by
  induction ws generalizing s with
  | nil => rfl
  | cons w ws ih => exact ih (hostWrite w s)

/-- The writes that give each listed register a byte. -/
def regWrites (f : RegIdx → Byte) (is : List RegIdx) : List HostWrite := is.map fun i => .reg i (f i)

/-- The writes that build a memory, from its last cell to its first. -/
def memWrites : Memory → List HostWrite
  | [] => []
  | (k, v) :: m => memWrites m ++ [.mem (BitVec.ofNat 12 k) v]

/-- Every register number. -/
def allRegs : List RegIdx := List.ofFn BitVec.ofFin

theorem mem_allRegs (i : RegIdx) : i ∈ allRegs := List.mem_ofFn.2 ⟨i.toFin, rfl⟩

theorem seed_regWrites_reg (f : RegIdx → Byte) (is : List RegIdx) (s : State) (j : RegIdx) :
    (seed (regWrites f is) s).reg j = if j ∈ is then f j else s.reg j := by
  induction is generalizing s with
  | nil => simp [regWrites, seed]
  | cons i is ih =>
    show (seed (regWrites f is) (s.setReg i (f i))).reg j = _
    rw [ih, State.setReg_reg]
    by_cases here : j = i
    · simp [here]
    · simp [here]

theorem seed_regWrites_frame (f : RegIdx → Byte) (is : List RegIdx) (s : State) : SameButRegs (seed (regWrites f is) s) s := by
  induction is generalizing s with
  | nil => exact ⟨rfl, rfl, rfl, rfl, rfl, rfl, rfl⟩
  | cons i is ih =>
    obtain ⟨pc, mem, stack, sp, run, cause, info⟩ := ih (s.setReg i (f i))
    exact ⟨pc, mem, stack, sp, run, cause, info⟩

/-- A cell written below every listed one is the new first cell. -/
theorem Memory.write_below {k : Nat} {v : Byte} {m : Memory} (canonical : Memory.wfFrom (k + 1) m = true) (listed : v ≠ 0) :
    Memory.write m k v = (k, v) :: m := by
  cases m with
  | nil => exact if_neg listed
  | cons c m =>
    obtain ⟨j, u⟩ := c
    obtain ⟨above, -⟩ := Memory.wfFrom_cell.1 canonical
    rw [Memory.write, if_pos (by omega)]
    exact if_neg listed

/-- The writes of a canonical memory build it from the empty one, and touch nothing else. -/
theorem seed_memWrites {lo : Nat} {m : Memory} (canonical : Memory.wfFrom lo m = true) {s : State} (empty : s.mem = []) :
    seed (memWrites m) s = s.setMem m := by
  induction m generalizing lo with
  | nil => exact State.eq_of_fields rfl rfl empty rfl rfl rfl rfl rfl
  | cons c m ih =>
    obtain ⟨k, v⟩ := c
    obtain ⟨-, inside, listed, tail⟩ := Memory.wfFrom_cell.1 canonical
    have address : (BitVec.ofNat 12 k).toNat = k := Nat.mod_eq_of_lt inside
    rw [memWrites, seed_append, ih tail]
    show (s.setMem m).setMem (Memory.write m (BitVec.ofNat 12 k).toNat v) = _
    rw [address, Memory.write_below tail listed]
    rfl

/-- The host's writes that seed a given state. -/
def seeding (s : State) : List HostWrite := memWrites s.mem ++ (regWrites s.reg allRegs ++ [.pc s.pc])

theorem launch_seeding {s : State} (launched : s.IsLaunch) (canonical : Memory.wf s.mem = true) :
    launch (seeding s) = s := by
  obtain ⟨stack, sp, run, cause, info⟩ := launched
  rw [launch, seeding, seed_append, seed_append, seed_memWrites canonical rfl]
  have regs := seed_regWrites_reg s.reg allRegs (State.reset.setMem s.mem)
  have frame := seed_regWrites_frame s.reg allRegs (State.reset.setMem s.mem)
  generalize seed (regWrites s.reg allRegs) (State.reset.setMem s.mem) = u at regs frame ⊢
  obtain ⟨-, keptMem, keptStack, keptSp, keptRun, keptCause, keptInfo⟩ := frame
  have zeroStack : State.reset.stack = s.stack := State.stack_eq_of_slot fun k => (State.reset_slot k).trans (stack k).symm
  refine State.eq_of_fields (State.regs_eq_of_reg fun i => ?_) rfl keptMem (keptStack.trans zeroStack)
    (keptSp.trans sp.symm) (keptRun.trans run.symm) (keptCause.trans cause.symm) (keptInfo.trans info.symm)
  exact (regs i).trans (if_pos (mem_allRegs i))

/-- Settles O36: seeding keeps what makes a launch state, and every launch state has its seeding. -/
theorem seedingReachesExactlyLaunchStates : Obligations.SeedingReachesExactlyLaunchStates := by
  unfold Obligations.SeedingReachesExactlyLaunchStates
  intro s
  constructor
  · rintro ⟨ws, rfl⟩
    exact ⟨launch_isLaunch ws, launch_mem_wf ws⟩
  · exact fun ⟨launched, canonical⟩ => ⟨seeding s, launch_seeding launched canonical⟩

/-! ### The invariant at launch -/

theorem State.IsLaunch.inv {s : State} (launched : s.IsLaunch) (canonical : Memory.wf s.mem = true) : s.Inv := by
  obtain ⟨-, sp, run, cause, info⟩ := launched
  refine ⟨canonical, ?_, ?_, ?_⟩
  · simp [sp]
  · simp [run, cause]
  · simp [cause, info, recordLegal]

/-- Settles O38: seeding keeps memory canonical and the rest as reset leaves it. -/
theorem invariantHoldsAtLaunch : Obligations.InvariantHoldsAtLaunch := by
  unfold Obligations.InvariantHoldsAtLaunch
  exact fun ws => (launch_isLaunch ws).inv (launch_mem_wf ws)

/-- Settles O37: reset is the launch state of no writes. -/
theorem invariantHoldsAtReset : Obligations.InvariantHoldsAtReset := invariantHoldsAtLaunch []

/-! ### The bound on `pc` and the saved addresses (10_state.md R27) -/

/-- An instruction fetched inside memory keeps the bound: the advance reaches at most 0x1000, CALL saves it and jumps below
it, RETURN jumps to a saved address. -/
theorem effect_pcBounded {i : Instr} {s : State} (pc : s.pc.toNat ≤ 0xFFE) (bounded : s.PcBounded)
    (noCause : execCause i s = none) : (effect i (advance s)).PcBounded := by
  obtain ⟨-, slots⟩ := bounded
  have advanced : (s.pc + 2).toNat ≤ 0x1000 := by rw [pc_add_two_toNat pc]; omega
  cases i with
  | halt => exact ⟨advanced, slots⟩
  | ret => exact ⟨slots _, slots⟩
  | call nnn =>
    have free := execCause_call_eq_none.1 noCause
    refine ⟨by rw [effect_call_pc nnn]; omega, fun k => ?_⟩
    rw [effect_call_slot (s := advance s) free]
    split_ifs
    · exact advanced
    · exact slots k
  | add x y => exact ⟨advanced, slots⟩

theorem stepNext_pcBounded {s : State} (bounded : s.PcBounded) : (stepNext s).PcBounded := by
  obtain ⟨-, -, next⟩ | ⟨c, pc, -, -, -, -, next⟩ | ⟨i, pc, -, -, noCause, next⟩ := stepNext_cases s
  · rw [next]
    exact ⟨bounded.pcInRange, bounded.slotsInRange⟩
  · rw [next]
    refine ⟨?_, bounded.slotsInRange⟩
    rw [raise_pc, advance_pc, pc_add_two_toNat pc]
    omega
  · rw [next]
    exact effect_pcBounded pc bounded noCause

/-- Settles O40: at launch every slot is 0, and the step keeps the bound. -/
theorem pcNeverLeavesMemoryByMoreThanOne : Obligations.PcNeverLeavesMemoryByMoreThanOne := by
  unfold Obligations.PcNeverLeavesMemoryByMoreThanOne
  refine ⟨fun ws pc => ⟨by omega, fun k => ?_⟩, fun s t bounded step => ?_⟩
  · rw [(launch_isLaunch ws).stackZero k]
    decide
  · obtain ⟨-, rfl⟩ := step_eq_next_iff.1 step
    exact stepNext_pcBounded bounded

end Sys2Proof.Machine
end

section
/-! PROOFS. The seven units (45_unit_interfaces.md R151 to R157): each port agrees with the operation of the step that it
stands for, and so the units wired together make the step. -/

namespace Sys2Proof.Machine.Units

/-! ### The vectors of the state by position -/

theorem ofNat_eq_iff {i : Nat} (lt : i < 16) (k : BitVec 4) : BitVec.ofNat 4 i = k ↔ i = k.toNat := by
  rw [← BitVec.toNat_inj, BitVec.toNat_ofNat, Nat.mod_eq_of_lt lt]

theorem regs_getElem (s : State) {i : Nat} (lt : i < 16) : s.regs[i] = s.reg (BitVec.ofNat 4 i) := by
  simp [State.reg, Nat.mod_eq_of_lt lt]

theorem stack_getElem (s : State) {i : Nat} (lt : i < 16) : s.stack[i] = s.slot (BitVec.ofNat 4 i) := by
  simp [State.slot, Nat.mod_eq_of_lt lt]

/-! ### fetch_unit (R151) -/

/-- The fetch_unit's shift and sum put the two bytes side by side. -/
theorem shift_add_eq_wordOfBytes (a b : Byte) : (a.setWidth 16 <<< 8) + b.setWidth 16 = wordOfBytes a b := by
  apply BitVec.eq_of_toNat_eq
  have ha := a.isLt
  have hb := b.isLt
  rw [wordOfBytes_toNat, BitVec.toNat_add, BitVec.toNat_shiftLeft, BitVec.toNat_setWidth, BitVec.toNat_setWidth,
    Nat.shiftLeft_eq]
  omega

theorem fetchUnit_beyond {s : State} (beyond : 0xFFF ≤ s.pc.toNat) : (fetchUnit s.pc s.mem).instrWord = none := by
  rw [fetchUnit, if_pos beyond]

theorem fetchUnit_instrWord {s : State} (pc : s.pc.toNat ≤ 0xFFE) :
    (fetchUnit s.pc s.mem).instrWord = some s.wordAtPc := by
  have addr0 : (s.pc.extractLsb' 0 12).toNat = s.pc.toNat := by
    rw [extractLsb'_zero_toNat]
    omega
  have addr1 : (s.pc.extractLsb' 0 12 + 1).toNat = s.pc.toNat + 1 := by
    rw [BitVec.toNat_add, addr0]
    exact Nat.mod_eq_of_lt (Nat.lt_of_le_of_lt (Nat.add_le_add_right pc 1) (by decide))
  rw [fetchUnit, if_neg (by omega)]
  simp only [addr0, addr1, shift_add_eq_wordOfBytes]
  rfl

/-! ### decoder (R152) -/

/-- The decoder's operation for an answer of `decodeWord`. -/
def opOf : Decoded → UnitOp
  | .instr .halt => .halt
  | .instr .ret => .ret
  | .instr (.call _) => .call
  | .instr (.add _ _) => .add
  | .unimplemented _ => .unimpl

/-- The match and mask columns give the operation that the fields give. -/
theorem decoder_op (w : Word) : (decoder w).op = opOf (decodeWord w) := by
  unfold decoder
  dsimp only
  by_cases halt : (fieldsOf w).IsHalt
  · rw [if_pos ((and_mask_halt_iff w).2 halt), decodeWord_of_classifiedAs (op := .instr .halt) halt]
    rfl
  rw [if_neg (mt (and_mask_halt_iff w).1 halt)]
  by_cases ret : (fieldsOf w).IsReturn
  · rw [if_pos ((and_mask_return_iff w).2 ret), decodeWord_of_classifiedAs (op := .instr .ret) ret]
    rfl
  rw [if_neg (mt (and_mask_return_iff w).1 ret)]
  by_cases call : (fieldsOf w).IsCall
  · rw [if_pos ((and_mask_call_iff w).2 call), decodeWord_of_classifiedAs (op := .instr (.call _)) ⟨call, rfl⟩]
    rfl
  rw [if_neg (mt (and_mask_call_iff w).1 call)]
  by_cases add : (fieldsOf w).IsAdd
  · rw [if_pos ((and_mask_add_iff w).2 add), decodeWord_of_classifiedAs (op := .instr (.add _ _)) ⟨add, rfl, rfl⟩]
    rfl
  rw [if_neg (mt (and_mask_add_iff w).1 add), decodeWord_of_classifiedAs (op := .unimplemented _) ⟨⟨halt, ret, call, add⟩, rfl⟩]
  rfl

/-! ### alu (R154) -/

theorem aluSum_eq (a b : Byte) : aluSum a b = addSum a b := by
  apply BitVec.eq_of_toNat_eq
  rw [addSum_toNat, aluSum, BitVec.toNat_ofNat]
  omega

theorem aluCarry_eq (a b : Byte) : aluCarry a b = addCarry a b := by
  rw [Bool.eq_iff_iff, addCarry_iff]
  exact decide_eq_true_iff

/-! ### register_file (R153) -/

/-- The two write ports leave the register file that ADD leaves. -/
theorem registerFile_add (x y : RegIdx) (s : State) :
    registerFile s.regs true x (aluSum (s.reg x) (s.reg y)) (aluCarry (s.reg x) (s.reg y)) = (effect (.add x y) s).regs := by
  refine Vector.ext fun i lt => ?_
  rw [regs_getElem _ lt, effect_add_reg, ← aluSum_eq, ← aluCarry_eq, ← regs_getElem s lt]
  simp only [registerFile, if_pos, Vector.getElem_ofFn, ofNat_eq_iff lt]
  rfl

/-! ### stack_unit (R155) -/

theorem stackUnitNoPop_iff (s : State) : stackUnitNoPop s.sp = true ↔ s.sp = 0 ∨ 16 < s.sp.toNat := by
  simp [stackUnitNoPop, stackUnitEmpty, ← BitVec.toNat_inj]

theorem popData_eq {s : State} (nonempty : s.sp ≠ 0) (legal : s.sp.toNat ≤ 16) :
    popData s.stack s.sp = some (stackTop s) := by
  have index := stackTop_index nonempty legal
  have newest : s.sp.toNat - 1 < 16 := by omega
  have slot : BitVec.ofNat 4 (s.sp.toNat - 1) = (s.sp - 1).setWidth 4 := (ofNat_eq_iff newest _).2 (by omega)
  rw [popData, if_neg (by omega), Vector.getElem?_eq_getElem newest, stack_getElem s newest, slot]
  rfl

theorem stackAfter_push {s : State} (free : s.sp.toNat ≤ 15) (v : Word) :
    stackAfter s.stack s.sp true v = (stackPush v s).stack := by
  obtain ⟨-, slots, -⟩ := stackPush_spec v free
  refine Vector.ext fun i lt => ?_
  rw [stack_getElem _ lt, slots, ← stack_getElem s lt, BitVec.toNat_ofNat, Nat.mod_eq_of_lt lt]
  simp only [stackAfter, if_pos, Vector.getElem_ofFn]
  rfl

theorem spAfter_push (sp : StackPtr) (pop : Bool) : spAfter sp true pop = sp + 1 := by
  simp only [spAfter, if_true]
  bv_omega

theorem spAfter_pop {sp : StackPtr} (nonempty : sp ≠ 0) : spAfter sp false true = sp - 1 := by
  have live : sp.toNat ≠ 0 := fun zero => nonempty (BitVec.eq_of_toNat_eq zero)
  simp only [spAfter, if_pos, Bool.false_eq_true, if_false]
  bv_omega

/-! ### control_transfer_logic and the wiring (R157) -/

/-- The decision table's rows that fault after a fetch. -/
def faultSignals (c : FaultCause) : Signals := ⟨true, false, false, false, false, false, .faulted, c⟩

/-- A fatal condition after the fetch selects its row of the decision table. -/
theorem signals_of_fatal {s : State} {c : FaultCause} (pc : s.pc.toNat ≤ 0xFFE) (fatal : fatalCondition s = some c) :
    signalsOfOp (decoder s.wordAtPc).op (stackUnitFull s.sp) (stackUnitNoPop s.sp) = faultSignals c := by
  rw [decoder_op]
  cases decoded : decodeWord s.wordAtPc with
  | unimplemented w =>
    obtain rfl : .unimplementedOpcode = c := Option.some.inj ((fatalCondition_unimplemented pc decoded).symm.trans fatal)
    rfl
  | instr i =>
    have cause : execCause i s = some c := (fatalCondition_instr pc decoded).symm.trans fatal
    cases i with
    | halt => cases cause
    | ret =>
      obtain ⟨undefined, same⟩ := Option.ite_none_right_eq_some.1 cause
      obtain rfl := Option.some.inj same
      rw [(stackUnitNoPop_iff s).2 undefined]
      rfl
    | call nnn =>
      obtain ⟨full, same⟩ := Option.ite_none_right_eq_some.1 cause
      obtain rfl := Option.some.inj same
      rw [show stackUnitFull s.sp = true from decide_eq_true full]
      rfl
    | add x y => cases cause

/-- The faulting rows let the program_counter advance and the record take the word, and drive no other unit. -/
theorem settle_faultSignals {c : FaultCause} (isFault : c ≠ .noFault) (s : State) (f : Fields) (w : Word) :
    settle s (faultSignals c) f w = some (raise c w (advance s)) := by
  have record : recordAfter s c w = (c, w) := if_neg isFault
  simp only [settle, faultSignals, record]
  rfl

/-- The `0x0` before the operand is the zero extension. -/
theorem append_zero_eq_callTarget (nnn : Addr) : 0x0#4 ++ nnn = callTarget nnn := by
  apply BitVec.eq_of_toNat_eq
  rw [append_toNat, callTarget, BitVec.toNat_setWidth, Nat.mod_eq_of_lt (by omega)]
  exact Nat.zero_add _

theorem settle_ret {s : State} (run : s.runState = .running) (nonempty : s.sp ≠ 0) (legal : s.sp.toNat ≤ 16)
    (full : Bool) (f : Fields) (w : Word) :
    settle s (signalsOfOp .ret full false) f w = some (effect .ret (advance s)) := by
  simp only [settle, signalsOfOp, popData_eq nonempty legal, spAfter_pop nonempty]
  exact congrArg some (State.eq_of_fields rfl rfl rfl rfl rfl run.symm rfl rfl)

theorem settle_call {s : State} (run : s.runState = .running) (free : s.sp.toNat ≤ 15) (empty : Bool) (f : Fields)
    (w : Word) : settle s (signalsOfOp .call false empty) f w = some (effect (.call f.nnn) (advance s)) := by
  simp only [settle, signalsOfOp, stackAfter_push free, spAfter_push]
  exact congrArg some
    (State.eq_of_fields rfl (append_zero_eq_callTarget f.nnn) rfl rfl rfl run.symm rfl rfl)

theorem settle_add {s : State} (run : s.runState = .running) (full empty : Bool) (f : Fields) (w : Word) :
    settle s (signalsOfOp .add full empty) f w = some (effect (.add f.x f.y) (advance s)) := by
  simp only [settle, signalsOfOp]
  exact congrArg some (State.eq_of_fields (registerFile_add f.x f.y s) rfl rfl rfl rfl run.symm rfl rfl)

/-- The row of an instruction that meets no fatal condition makes the instruction's effect after the advance. -/
theorem settle_effect {s : State} {i : Instr} (run : s.runState = .running) (decoded : decodeWord s.wordAtPc = .instr i)
    (noCause : execCause i s = none) :
    settle s (signalsOfOp (opOf (.instr i)) (stackUnitFull s.sp) (stackUnitNoPop s.sp)) (fieldsOf s.wordAtPc) s.wordAtPc =
      some (effect i (advance s)) := by
  have operands := decodeWord_eq_iff.1 decoded
  cases i with
  | halt => rfl
  | ret =>
    obtain ⟨nonempty, legal⟩ := execCause_ret_eq_none.1 noCause
    have defined : stackUnitNoPop s.sp = false := by
      rw [Bool.eq_false_iff, ne_eq, stackUnitNoPop_iff, not_or]
      exact ⟨nonempty, Nat.not_lt.2 legal⟩
    rw [defined]
    exact settle_ret run nonempty legal _ _ _
  | call nnn =>
    have free := execCause_call_eq_none.1 noCause
    obtain ⟨-, rfl⟩ := operands
    have notFull : stackUnitFull s.sp = false := decide_eq_false (by omega)
    rw [notFull]
    exact settle_call run free _ _ _
  | add x y =>
    obtain ⟨-, rfl, rfl⟩ := operands
    exact settle_add run _ _ _ _

/-- The units answer a next state for every Running machine, the step's. -/
theorem unitStep_running {s : State} (run : s.runState = .running) : unitStep s = some (stepNext s) := by
  obtain ⟨beyond, -, next⟩ | ⟨c, pc, fatal, -, isFault, -, next⟩ | ⟨i, pc, -, decoded, noCause, next⟩ := stepNext_cases s
  · rw [unitStep, fetchUnit_beyond beyond, next]
    rfl
  · rw [unitStep, fetchUnit_instrWord pc, next]
    simp only [signals_of_fatal pc fatal]
    exact settle_faultSignals isFault s _ _
  · rw [unitStep, fetchUnit_instrWord pc, next]
    simp only [decoder_op, decoded]
    exact settle_effect run decoded noCause

end Sys2Proof.Machine.Units

namespace Sys2Proof.Machine

/-- Settles O46: on a Running machine the units and the step answer the same next state. -/
theorem unitsMakeTheStep : Obligations.UnitsMakeTheStep := by
  unfold Obligations.UnitsMakeTheStep
  intro s t run
  rw [Units.unitStep_running run, step_running run, Option.some_inj, Host.Outcome.next.injEq]

end Sys2Proof.Machine
end
